-- ==== Sys2Proof/Word.lean ====
section
/-! DEFINITION. The word types of DESCORE (00_scope.md R8, R9, R13): a command word, a 64-bit bus, a declared length,
a table-select code, an index field. -/

namespace Sys2Proof

/-- A command word `CMD[15:0]` (30_encoding.md R70). -/
abbrev Word := BitVec 16

/-- A 64-bit bus or register, which carries a bit sequence left-justified (00_scope.md R13). -/
abbrev Bus := BitVec 64

/-- A declared length or a fault value, 7 bits, 0..127 (00_scope.md R9, 10_state.md R26). -/
abbrev Len := BitVec 7

/-- The `IDX` field of a command word: a round number or an entry index, 0..63 (30_encoding.md R75). -/
abbrev Idx := BitVec 6

end Sys2Proof
end

