-- ==== Sys2Proof/Config.lean ====
section
/-! DEFINITION. What the spec fixes for every DESCORE as a parameter (00_scope.md R9, 70_reset_and_hazards.md R259).
No behaviour visible to the host is left open (93_implementation_defined.md, end of part A), so there is no free value
and no opaque constant here. `REGMAP`, `RESET_STYLE` and the cycles per step are OPEN and nothing in the model reads
them (log 5, log 6). -/

namespace Sys2Proof.Config

/-- `BUF_CAP`: the capacity in bits of `DIN`, `KEY` and `DOUT` (00_scope.md R9). -/
abbrev bufCap : Nat := 64

/-- `ROUNDS`: rounds are numbered 1..16 (00_scope.md R8). -/
abbrev rounds : Nat := 16

/-- `LAT_SIMPLE`: steps of a one-step command, and of an `ENC`/`DEC` whose block check fails (70_reset_and_hazards.md R259). -/
abbrev latSimple : Nat := 1

/-- Steps of an `ENC`/`DEC` whose key check fails (70_reset_and_hazards.md R259). -/
abbrev latKeyFault : Nat := 2

/-- `LAT_CRYPT`: steps of an `ENC`/`DEC` that succeeds, 1 accept and 16 round steps (70_reset_and_hazards.md R259). -/
abbrev latCrypt : Nat := 17

end Sys2Proof.Config
end

