-- ==== Sys2Proof/Syntax.lean ====
section
/-! DEFINITION. The commands of DESCORE as syntax: one constructor of `Instr` per row of spec/opcode_table.json, whole
(30_encoding.md R71, R72). The data operand is not in the word (R75). -/

namespace Sys2Proof

/-- The direction of the key schedule, `Forward` or `Reverse` (00_scope.md R17); `DIR` 0 and 1 (30_encoding.md R75). -/
inductive Direction where
  | forward
  | reverse
deriving DecidableEq, Repr

/-- The six position tables (20_memory.md R51). -/
inductive PosTable where
  | ip
  | ipInverse
  | e
  | p
  | pc1
  | pc2
deriving DecidableEq, Repr

/-- The eight substitution tables (20_memory.md R52). -/
inductive SBox where
  | s1
  | s2
  | s3
  | s4
  | s5
  | s6
  | s7
  | s8
deriving DecidableEq, Repr

/-- A table that a `TBL` field can select (30_encoding.md R72). -/
inductive Table where
  | pos (t : PosTable)
  | box (b : SBox)
deriving DecidableEq, Repr

/-- A command (30_encoding.md R71, R74). `DRK` and `FRD` carry a direction and a round number 0..63, every `TRD` an entry
index 0..63. -/
inductive Instr where
  | ldk
  | enc
  | dec
  | drk (dir : Direction) (round : Idx)
  | frd (dir : Direction) (round : Idx)
  | shfIp
  | shfIpInverse
  | shfE
  | shfP
  | shfPc1
  | shfPc2
  | shfS1
  | shfS2
  | shfS3
  | shfS4
  | shfS5
  | shfS6
  | shfS7
  | shfS8
  | trdIp (i : Idx)
  | trdIpInverse (i : Idx)
  | trdE (i : Idx)
  | trdP (i : Idx)
  | trdPc1 (i : Idx)
  | trdPc2 (i : Idx)
  | trdS1 (i : Idx)
  | trdS2 (i : Idx)
  | trdS3 (i : Idx)
  | trdS4 (i : Idx)
  | trdS5 (i : Idx)
  | trdS6 (i : Idx)
  | trdS7 (i : Idx)
  | trdS8 (i : Idx)
deriving DecidableEq, Repr

/-- The `SHF` command of a table (30_encoding.md R71, R72). -/
def Instr.shf : Table → Instr
  | .pos .ip => .shfIp
  | .pos .ipInverse => .shfIpInverse
  | .pos .e => .shfE
  | .pos .p => .shfP
  | .pos .pc1 => .shfPc1
  | .pos .pc2 => .shfPc2
  | .box .s1 => .shfS1
  | .box .s2 => .shfS2
  | .box .s3 => .shfS3
  | .box .s4 => .shfS4
  | .box .s5 => .shfS5
  | .box .s6 => .shfS6
  | .box .s7 => .shfS7
  | .box .s8 => .shfS8

/-- The `TRD` command of a table and an entry index (30_encoding.md R71, R72). -/
def Instr.trd : Table → Idx → Instr
  | .pos .ip, i => .trdIp i
  | .pos .ipInverse, i => .trdIpInverse i
  | .pos .e, i => .trdE i
  | .pos .p, i => .trdP i
  | .pos .pc1, i => .trdPc1 i
  | .pos .pc2, i => .trdPc2 i
  | .box .s1, i => .trdS1 i
  | .box .s2, i => .trdS2 i
  | .box .s3, i => .trdS3 i
  | .box .s4, i => .trdS4 i
  | .box .s5, i => .trdS5 i
  | .box .s6, i => .trdS6 i
  | .box .s7, i => .trdS7 i
  | .box .s8, i => .trdS8 i

/-- The pseudo-command `KEY lit` (30_encoding.md R79). -/
abbrev Instr.key : Instr := .ldk

/-- The pseudo-command `RK r` (30_encoding.md R79). -/
abbrev Instr.rk (r : Idx) : Instr := .drk .forward r

/-- The pseudo-command `SBOX n` (30_encoding.md R79). -/
abbrev Instr.sbox (b : SBox) : Instr := .shf (.box b)

end Sys2Proof
end

