-- ==== Sys2Proof/WellFormed.lean ====
section
/-! DEFINITION. Which terms of `Instr` a command word can spell: every command, but a `TRD` only with an index inside its
table (30_encoding.md R73; the entry counts are those of 20_memory.md R51). -/

namespace Sys2Proof

/-- A well-formed command (30_encoding.md R73, the last condition). -/
def Instr.wf : Instr → Bool
  | .ldk => true
  | .enc => true
  | .dec => true
  | .drk _ _ => true
  | .frd _ _ => true
  | .shfIp => true
  | .shfIpInverse => true
  | .shfE => true
  | .shfP => true
  | .shfPc1 => true
  | .shfPc2 => true
  | .shfS1 => true
  | .shfS2 => true
  | .shfS3 => true
  | .shfS4 => true
  | .shfS5 => true
  | .shfS6 => true
  | .shfS7 => true
  | .shfS8 => true
  | .trdIp _ => true
  | .trdIpInverse _ => true
  | .trdE i => decide (i.toNat < 48)
  | .trdP i => decide (i.toNat < 32)
  | .trdPc1 i => decide (i.toNat < 56)
  | .trdPc2 i => decide (i.toNat < 48)
  | .trdS1 _ => true
  | .trdS2 _ => true
  | .trdS3 _ => true
  | .trdS4 _ => true
  | .trdS5 _ => true
  | .trdS6 _ => true
  | .trdS7 _ => true
  | .trdS8 _ => true

end Sys2Proof
end

