-- ==== Sys2Proof/Decode.lean ====
section
/-! DEFINITION. Decoding a command word, total on all 65536 words and rejecting by name, and the encoder
(30_encoding.md R70 to R76). -/

namespace Sys2Proof

/-- Why a word is illegal (30_encoding.md R73, in the order of its conditions). Every one of them raises `IllegalCommand`. -/
inductive Reject where
  | reservedOp       -- `OP` is 0x0 or 0x8..0xF
  | zSet             -- `Z = 1`
  | unusedFieldSet   -- a field the command does not take is not zero
  | reservedTable    -- `TBL` is 6 or 7 in `SHF` or `TRD`
  | indexPastTable   -- `TRD` with `IDX >= N_entries(TBL)`
deriving DecidableEq, Repr

/-- `OP = CMD[15:12]` (30_encoding.md R70). -/
def opField (w : Word) : BitVec 4 := w.extractLsb' 12 4

/-- `TBL = CMD[11:8]` (30_encoding.md R70). -/
def tblField (w : Word) : BitVec 4 := w.extractLsb' 8 4

/-- `DIR = CMD[7]` (30_encoding.md R70). -/
def dirField (w : Word) : BitVec 1 := w.extractLsb' 7 1

/-- `Z = CMD[6]` (30_encoding.md R70). -/
def zField (w : Word) : BitVec 1 := w.extractLsb' 6 1

/-- `IDX = CMD[5:0]` (30_encoding.md R70). -/
def idxField (w : Word) : Idx := w.extractLsb' 0 6

/-- `DIR` 0 is `Forward`, 1 is `Reverse` (30_encoding.md R75). -/
def dirOfBit (b : BitVec 1) : Direction := if b = 0#1 then .forward else .reverse

/-- The `DIR` bit of a direction (30_encoding.md R75). -/
def bitOfDir : Direction → BitVec 1
  | .forward => 0#1
  | .reverse => 1#1

/-- The table of a `TBL` code; codes 6 and 7 name none (30_encoding.md R72). -/
def tableOfCode (c : BitVec 4) : Option Table :=
  if c = 0#4 then some (.pos .ip)
  else if c = 1#4 then some (.pos .ipInverse)
  else if c = 2#4 then some (.pos .e)
  else if c = 3#4 then some (.pos .p)
  else if c = 4#4 then some (.pos .pc1)
  else if c = 5#4 then some (.pos .pc2)
  else if c = 8#4 then some (.box .s1)
  else if c = 9#4 then some (.box .s2)
  else if c = 10#4 then some (.box .s3)
  else if c = 11#4 then some (.box .s4)
  else if c = 12#4 then some (.box .s5)
  else if c = 13#4 then some (.box .s6)
  else if c = 14#4 then some (.box .s7)
  else if c = 15#4 then some (.box .s8)
  else none

/-- The `TBL` code of a table (30_encoding.md R72). -/
def codeOfTable : Table → BitVec 4
  | .pos .ip => 0#4
  | .pos .ipInverse => 1#4
  | .pos .e => 2#4
  | .pos .p => 3#4
  | .pos .pc1 => 4#4
  | .pos .pc2 => 5#4
  | .box .s1 => 8#4
  | .box .s2 => 9#4
  | .box .s3 => 10#4
  | .box .s4 => 11#4
  | .box .s5 => 12#4
  | .box .s6 => 13#4
  | .box .s7 => 14#4
  | .box .s8 => 15#4

/-- `N_entries(TBL)` (30_encoding.md R73; 20_memory.md R51, R52). -/
def entriesOf : Table → Nat
  | .pos .ip => 64
  | .pos .ipInverse => 64
  | .pos .e => 48
  | .pos .p => 32
  | .pos .pc1 => 56
  | .pos .pc2 => 48
  | .box _ => 64

/-- A command without operands: `TBL`, `DIR` and `IDX` must be zero (30_encoding.md R73). -/
def decodePlain (w : Word) (i : Instr) : Except Reject Instr :=
  if tblField w = 0#4 ∧ dirField w = 0#1 ∧ idxField w = 0#6 then .ok i else .error .unusedFieldSet

/-- `DRK` and `FRD`: `TBL` must be zero; the round number is not looked at (30_encoding.md R73). -/
def decodeRound (w : Word) (mk : Direction → Idx → Instr) : Except Reject Instr :=
  if tblField w = 0#4 then .ok (mk (dirOfBit (dirField w)) (idxField w)) else .error .unusedFieldSet

/-- `SHF`: a table, and `DIR`, `IDX` zero (30_encoding.md R73). -/
def decodeShf (w : Word) : Except Reject Instr :=
  match tableOfCode (tblField w) with
  | none => .error .reservedTable
  | some t => if dirField w = 0#1 ∧ idxField w = 0#6 then .ok (.shf t) else .error .unusedFieldSet

/-- `TRD`: a table, `DIR` zero, and an index inside the table (30_encoding.md R73). -/
def decodeTrd (w : Word) : Except Reject Instr :=
  match tableOfCode (tblField w) with
  | none => .error .reservedTable
  | some t =>
    if dirField w = 0#1 then
      if (idxField w).toNat < entriesOf t then .ok (.trd t (idxField w)) else .error .indexPastTable
    else .error .unusedFieldSet

/-- Decoding, total on every 16-bit word (30_encoding.md R74): a word that passes the conditions of R73 is the command its
`OP` names with the operands its fields give. -/
def decode (w : Word) : Except Reject Instr :=
  if zField w = 1#1 then .error .zSet
  else if opField w = 1#4 then decodePlain w .ldk
  else if opField w = 2#4 then decodePlain w .enc
  else if opField w = 3#4 then decodePlain w .dec
  else if opField w = 4#4 then decodeRound w .drk
  else if opField w = 5#4 then decodeRound w .frd
  else if opField w = 6#4 then decodeShf w
  else if opField w = 7#4 then decodeTrd w
  else .error .reservedOp

/-- A word from its fields, `Z` zero: `OP[15:12] TBL[11:8] DIR[7] Z[6] IDX[5:0]` (30_encoding.md R70). -/
def wordOf (op tbl : BitVec 4) (dir : BitVec 1) (idx : Idx) : Word :=
  (op ++ tbl ++ dir ++ 0#1 ++ idx : BitVec (4 + 4 + 1 + 1 + 6))

/-- `SHF`'s word (30_encoding.md R74, R78). -/
def shfWord (t : Table) : Word := wordOf 6#4 (codeOfTable t) 0#1 0#6

/-- `TRD`'s word (30_encoding.md R74, R78). -/
def trdWord (t : Table) (i : Idx) : Word := wordOf 7#4 (codeOfTable t) 0#1 i

/-- The word of a command (30_encoding.md R71, R72, R78). -/
def encode : Instr → Word
  | .ldk => wordOf 1#4 0#4 0#1 0#6
  | .enc => wordOf 2#4 0#4 0#1 0#6
  | .dec => wordOf 3#4 0#4 0#1 0#6
  | .drk d r => wordOf 4#4 0#4 (bitOfDir d) r
  | .frd d r => wordOf 5#4 0#4 (bitOfDir d) r
  | .shfIp => shfWord (.pos .ip)
  | .shfIpInverse => shfWord (.pos .ipInverse)
  | .shfE => shfWord (.pos .e)
  | .shfP => shfWord (.pos .p)
  | .shfPc1 => shfWord (.pos .pc1)
  | .shfPc2 => shfWord (.pos .pc2)
  | .shfS1 => shfWord (.box .s1)
  | .shfS2 => shfWord (.box .s2)
  | .shfS3 => shfWord (.box .s3)
  | .shfS4 => shfWord (.box .s4)
  | .shfS5 => shfWord (.box .s5)
  | .shfS6 => shfWord (.box .s6)
  | .shfS7 => shfWord (.box .s7)
  | .shfS8 => shfWord (.box .s8)
  | .trdIp i => trdWord (.pos .ip) i
  | .trdIpInverse i => trdWord (.pos .ipInverse) i
  | .trdE i => trdWord (.pos .e) i
  | .trdP i => trdWord (.pos .p) i
  | .trdPc1 i => trdWord (.pos .pc1) i
  | .trdPc2 i => trdWord (.pos .pc2) i
  | .trdS1 i => trdWord (.box .s1) i
  | .trdS2 i => trdWord (.box .s2) i
  | .trdS3 i => trdWord (.box .s3) i
  | .trdS4 i => trdWord (.box .s4) i
  | .trdS5 i => trdWord (.box .s5) i
  | .trdS6 i => trdWord (.box .s6) i
  | .trdS7 i => trdWord (.box .s7) i
  | .trdS8 i => trdWord (.box .s8) i

/-- The instruction the decoder reads from an instruction whose `nbits` low bits are `w` (the rest of the one 16-bit word
zero). An instruction is one 16-bit word (30_encoding.md R77), so more bits than that are no instruction. -/
def decodeTableWord (nbits w : Nat) : Option Instr :=
  if nbits ≤ 16 then
    match decode (BitVec.ofNat 16 (w % 2 ^ nbits)) with
    | .ok i => some i
    | .error _ => none
  else none

end Sys2Proof
end

