-- ==== Sys2Proof/Machine/State.lean ====
section
/-! DEFINITION. The state of one DESCORE instance as plain data, the reasons a step could stop, and the state after
reset (10_state.md R22, R27, R36). There is no memory and no program counter (20_memory.md R50, 10_state.md R29). -/

namespace Sys2Proof.Machine

/-- The sequencer phase `PH`: 0 = `IDLE`, 1 = `RUN` (10_state.md R22, R29). -/
inductive Phase where
  | idle
  | run
deriving DecidableEq, Repr

/-- What the host drives on the input ports in one step (10_state.md R27). -/
structure Ports where
  /-- `rst`: 1 = reset. -/
  rst : Bool
  /-- `cmd_valid`: 1 = the host presents a command. -/
  cmdValid : Bool
  /-- `CMD[15:0]`, the command word. -/
  cmd : Word
  /-- `DIN[63:0]`, operand bits, left-justified. -/
  din : Bus
  /-- `DLEN[6:0]`, operand length in bits, 0..127. -/
  dlen : Len
deriving DecidableEq, Repr

/-- Ports on which the host presents nothing: `rst = 0`, `cmd_valid = 0`. What the others carry then has no effect
(10_state.md R27). -/
def Ports.quiet : Ports := ⟨false, false, 0#16, 0#64, 0#7⟩

/-- The complete state (10_state.md R22), and what the host drives in this step and the later ones (log 1). -/
structure State where
  /-- `KEY`: master key bits, left-justified. -/
  key : Bus
  /-- `KLEN`: the master key's bit length as declared. -/
  klen : Len
  /-- `DOUT`: result bits of the last completed command, left-justified. -/
  dout : Bus
  /-- `OLEN`: length in bits of the result in `DOUT`. -/
  olen : Len
  /-- `ST`: `BUSY` = bit 3, `DONE` = bit 2, `ERRK` = bits 1:0 (10_state.md R25). -/
  st : BitVec 4
  /-- `EXP`: the required length of an `InvalidLength` (10_state.md R26). -/
  exp : Len
  /-- `GOT`: the length or the round found (10_state.md R26). -/
  got : Len
  /-- `ECMD`: the faulting command word (10_state.md R26). -/
  ecmd : Word
  /-- `PH`: the sequencer phase. -/
  ph : Phase
  /-- `RND`: number of the round the next `RUN` step performs. -/
  rnd : BitVec 5
  /-- `DIRQ`: the direction latched at acceptance. -/
  dirq : Direction
  /-- `L`: left half in flight. -/
  l : BitVec 32
  /-- `R`: right half in flight. -/
  r : BitVec 32
  /-- THE MODEL'S OWN FIELD (log 1): one port sample per step, this step's first. -/
  inputs : List Ports
deriving DecidableEq, Repr

/-- The port values sampled in this step; after the last sample the host presents nothing (log 1). -/
def State.ports (s : State) : Ports := s.inputs.headD Ports.quiet

/-- Reasons the machine could stop for good. DESCORE has none: no behaviour is stuck, every command completes and every
fault of the spec is recorded in `ST` and `EINFO` and leaves the engine ready (93_implementation_defined.md, end of
part A; 60_exceptions.md R214, R220). So the type has no constructor and no step answers a fault (log 8). -/
inductive Fault : Type
deriving DecidableEq, Repr

/-- Reasons a step is refused. -/
inductive Refusal where
  /-- Raised by `exec` for an instruction that has no meaning yet; safe. No arm raises it: every instruction has its
  meaning. -/
  | notModelled (mnemonic : String)
deriving DecidableEq, Repr

/-- The state after the reset step: every register zero, `PH = IDLE` (10_state.md R36). The host presents nothing (the
value of the model's own field is a DESIGN CHOICE, log 1). -/
def State.reset : State where
  key := 0#64
  klen := 0#7
  dout := 0#64
  olen := 0#7
  st := 0#4
  exp := 0#7
  got := 0#7
  ecmd := 0#16
  ph := .idle
  rnd := 0#5
  dirq := .forward
  l := 0#32
  r := 0#32
  inputs := []

end Sys2Proof.Machine
end

