-- ==== Sys2Proof/Machine/Flags.lean ====
section
/-! DEFINITION. The status register, the fault record and the outputs that are functions of them (10_state.md R25, R26,
R28; 60_exceptions.md R211 to R213). -/

namespace Sys2Proof.Machine

/-- `raise K(info)`: the fault a command ends in (60_exceptions.md R211, R212, R213). -/
inductive Raise where
  | invalidLength (expected got : Len)
  | invalidRound (value : Len)
  | illegalCommand
deriving DecidableEq, Repr

/-- The code of a fault kind in `ERRK` (10_state.md R25). -/
def Raise.errk : Raise → BitVec 2
  | .invalidLength _ _ => 1#2
  | .invalidRound _ => 2#2
  | .illegalCommand => 3#2

/-- What a fault records in `EXP` (10_state.md R26). -/
def Raise.exp : Raise → Len
  | .invalidLength e _ => e
  | .invalidRound _ => 0#7
  | .illegalCommand => 0#7

/-- What a fault records in `GOT` (10_state.md R26). -/
def Raise.got : Raise → Len
  | .invalidLength _ g => g
  | .invalidRound v => v
  | .illegalCommand => 0#7

/-- `ST` from its fields: `BUSY` in bit 3, `DONE` in bit 2, `ERRK` in bits 1:0 (10_state.md R25). -/
def stOf (busy done : Bool) (errk : BitVec 2) : BitVec 4 := (BitVec.ofBool busy ++ BitVec.ofBool done ++ errk : BitVec (1 + 1 + 2))

/-- `BUSY = ST[3]` (10_state.md R25). -/
def State.busy (s : State) : Bool := s.st.getLsbD 3

/-- `DONE = ST[2]` (10_state.md R25). -/
def State.done (s : State) : Bool := s.st.getLsbD 2

/-- `ERRK = ST[1:0]` (10_state.md R25). -/
def State.errk (s : State) : BitVec 2 := s.st.extractLsb' 0 2

/-- The output `cmd_ready = not BUSY` (10_state.md R28). -/
def State.cmdReady (s : State) : Bool := !s.busy

/-- The output `err = DONE and (ERRK != 0)` (10_state.md R28); the output `done` is `DONE` itself. -/
def State.err (s : State) : Bool := s.done && s.errk != 0#2

/-- `EINFO[29:0] = EXP ++ GOT ++ ECMD` (10_state.md R26). -/
def State.einfo (s : State) : BitVec 30 := (s.exp ++ s.got ++ s.ecmd : BitVec (7 + 7 + 16))

/-- What the host can read in one step (10_state.md R21, R28): the result, the status, the fault record and the outputs. -/
structure HostView where
  dout : Bus
  olen : Len
  st : BitVec 4
  einfo : BitVec 30
  cmdReady : Bool
  done : Bool
  err : Bool
deriving DecidableEq, Repr

/-- The host's view of a state; taking it changes nothing (20_memory.md R62). -/
def State.hostView (s : State) : HostView := ⟨s.dout, s.olen, s.st, s.einfo, s.cmdReady, s.done, s.err⟩

/-- The register a host reads under the number of 10_state.md R33; numbers 0 to 2 are write-only ports, and a number is a
name, not an address (log 5). -/
def State.readReg (s : State) (n : Nat) : Option Bus :=
  if n = 3 then some (s.st.setWidth 64)
  else if n = 4 then some (s.olen.setWidth 64)
  else if n = 5 then some s.dout
  else if n = 6 then some (s.einfo.setWidth 64)
  else none

end Sys2Proof.Machine
end

