-- ==== Sys2Proof/Machine/Bits.lean ====
section
/-! DEFINITION. Bit sequences and the datapath primitives (00_scope.md R10 to R13; 40_bitsequence.md R100 to R106).

A bit sequence of length `n` is a `BitVec n` read most significant bit first: the bit `s[i]` is `s.getMsbD i`. With that
reading `a ++ b` (R102), `a ^^^ b` (R104), `BitVec.ofNat n v` (`bits_n(v)`, R106) and `BitVec.toNat s` (`uint(s)`, R106)
are the spec's own operations. -/

namespace Sys2Proof.Machine

/-- The sequence of length `n` whose bit at index `i` is `f i`, index 0 first and most significant (00_scope.md R10). -/
def bitsOf (f : Nat → Bool) : (n : Nat) → BitVec n
  | 0 => 0#0
  | n + 1 => (bitsOf f n).concat (f n)

/-- `seq(B, n)`: the `n`-bit sequence read from a bus, `s[i] = B[63 - i]` (00_scope.md R13). -/
def seq (b : Bus) (n : Nat) : BitVec n := bitsOf (fun i => b.getMsbD i) n

/-- `bus(s)`: the 64-bit value carrying `s` left-justified, low bits zero (00_scope.md R13). -/
def bus {n : Nat} (s : BitVec n) : Bus := bitsOf (fun i => s.getMsbD i) 64

/-- `s[a..a+n)`: the `n` bits of `s` from index `a` on (40_bitsequence.md R101). THE MODEL'S CHOICE: 60_exceptions.md R229
and D30 leave it to a model whether to keep the out-of-range `InvalidLength` check of the source; this one drops it, and a
bit past the end of `s` reads as 0. No command can reach that case (log 11). -/
def slice {m : Nat} (s : BitVec m) (a n : Nat) : BitVec n := bitsOf (fun i => s.getMsbD (a + i)) n

/-- `rotl(s, k)`: circular left rotation by `k mod len(s)`, `t[i] = s[(i + m) mod len(s)]` (40_bitsequence.md R103). At
length 0 the value is the empty sequence, which no command forms (log 7). -/
def rotl {n : Nat} (s : BitVec n) (k : Nat) : BitVec n := bitsOf (fun i => s.getMsbD ((i + k % n) % n)) n

end Sys2Proof.Machine
end

