-- ==== Sys2Proof/Machine/Operands.lean ====
section
/-! DEFINITION. The operands of a command: the data operand on the ports and the master key, each a sequence of a
declared length of which at most 64 bits are held (10_state.md R23, R27). -/

namespace Sys2Proof.Machine

/-- The bus that carries `seq(b, min(n, 64))`: the first `min(n, 64)` bits of `b`, the bits below them zero
(10_state.md R23, R27). -/
def carried (b : Bus) (n : Len) : Bus := bus (seq b (min n.toNat 64))

/-- The data operand `OP = seq(DIN, min(DLEN, 64))`, on its bus (10_state.md R27). -/
def State.operand (s : State) : Bus := carried s.ports.din s.ports.dlen

/-- The operand's declared length `DLEN` (10_state.md R27). -/
def State.operandLen (s : State) : Len := s.ports.dlen

/-- The master key `MK = seq(KEY, min(KLEN, 64))`, on its bus (10_state.md R23). -/
def masterKey (key : Bus) (klen : Len) : Bus := carried key klen

/-- Byte `k` of a 64-bit block or key in a host's memory is `B[63-8k : 56-8k]` (20_memory.md R57). -/
def hostByte (b : Bus) (k : Nat) : BitVec 8 := slice b (8 * k) 8

end Sys2Proof.Machine
end

