-- ==== Sys2Proof/Machine/Tables.lean ====
section
/-! DEFINITION. The fourteen tables (`PROM`, `SROM`) and their application (20_memory.md R51, R52; 41_tables.md R120,
R121, R127 to R132, R134 to R144). They are constants, not state (10_state.md R32). Entries of a position table are
1-indexed, as the spec writes them. -/

namespace Sys2Proof.Machine

/-- 41_tables.md R127. -/
def promIp : List Nat :=
  [58, 50, 42, 34, 26, 18, 10, 2,
   60, 52, 44, 36, 28, 20, 12, 4,
   62, 54, 46, 38, 30, 22, 14, 6,
   64, 56, 48, 40, 32, 24, 16, 8,
   57, 49, 41, 33, 25, 17, 9, 1,
   59, 51, 43, 35, 27, 19, 11, 3,
   61, 53, 45, 37, 29, 21, 13, 5,
   63, 55, 47, 39, 31, 23, 15, 7]

/-- 41_tables.md R128. -/
def promIpInverse : List Nat :=
  [40, 8, 48, 16, 56, 24, 64, 32,
   39, 7, 47, 15, 55, 23, 63, 31,
   38, 6, 46, 14, 54, 22, 62, 30,
   37, 5, 45, 13, 53, 21, 61, 29,
   36, 4, 44, 12, 52, 20, 60, 28,
   35, 3, 43, 11, 51, 19, 59, 27,
   34, 2, 42, 10, 50, 18, 58, 26,
   33, 1, 41, 9, 49, 17, 57, 25]

/-- 41_tables.md R129. -/
def promE : List Nat :=
  [32, 1, 2, 3, 4, 5,
   4, 5, 6, 7, 8, 9,
   8, 9, 10, 11, 12, 13,
   12, 13, 14, 15, 16, 17,
   16, 17, 18, 19, 20, 21,
   20, 21, 22, 23, 24, 25,
   24, 25, 26, 27, 28, 29,
   28, 29, 30, 31, 32, 1]

/-- 41_tables.md R130. -/
def promP : List Nat :=
  [16, 7, 20, 21,
   29, 12, 28, 17,
   1, 15, 23, 26,
   5, 18, 31, 10,
   2, 8, 24, 14,
   32, 27, 3, 9,
   19, 13, 30, 6,
   22, 11, 4, 25]

/-- 41_tables.md R131. -/
def promPc1 : List Nat :=
  [57, 49, 41, 33, 25, 17, 9,
   1, 58, 50, 42, 34, 26, 18,
   10, 2, 59, 51, 43, 35, 27,
   19, 11, 3, 60, 52, 44, 36,
   63, 55, 47, 39, 31, 23, 15,
   7, 62, 54, 46, 38, 30, 22,
   14, 6, 61, 53, 45, 37, 29,
   21, 13, 5, 28, 20, 12, 4]

/-- 41_tables.md R132. -/
def promPc2 : List Nat :=
  [14, 17, 11, 24, 1, 5,
   3, 28, 15, 6, 21, 10,
   23, 19, 12, 4, 26, 8,
   16, 7, 27, 20, 13, 2,
   41, 52, 31, 37, 47, 55,
   30, 40, 51, 45, 33, 48,
   44, 49, 39, 56, 34, 53,
   46, 42, 50, 36, 29, 32]

/-- 41_tables.md R137, row-major (R134). -/
def sromS1 : List Nat :=
  [14, 4, 13, 1, 2, 15, 11, 8, 3, 10, 6, 12, 5, 9, 0, 7,
   0, 15, 7, 4, 14, 2, 13, 1, 10, 6, 12, 11, 9, 5, 3, 8,
   4, 1, 14, 8, 13, 6, 2, 11, 15, 12, 9, 7, 3, 10, 5, 0,
   15, 12, 8, 2, 4, 9, 1, 7, 5, 11, 3, 14, 10, 0, 6, 13]

/-- 41_tables.md R138, row-major (R134). -/
def sromS2 : List Nat :=
  [15, 1, 8, 14, 6, 11, 3, 4, 9, 7, 2, 13, 12, 0, 5, 10,
   3, 13, 4, 7, 15, 2, 8, 14, 12, 0, 1, 10, 6, 9, 11, 5,
   0, 14, 7, 11, 10, 4, 13, 1, 5, 8, 12, 6, 9, 3, 2, 15,
   13, 8, 10, 1, 3, 15, 4, 2, 11, 6, 7, 12, 0, 5, 14, 9]

/-- 41_tables.md R139, row-major (R134). -/
def sromS3 : List Nat :=
  [10, 0, 9, 14, 6, 3, 15, 5, 1, 13, 12, 7, 11, 4, 2, 8,
   13, 7, 0, 9, 3, 4, 6, 10, 2, 8, 5, 14, 12, 11, 15, 1,
   13, 6, 4, 9, 8, 15, 3, 0, 11, 1, 2, 12, 5, 10, 14, 7,
   1, 10, 13, 0, 6, 9, 8, 7, 4, 15, 14, 3, 11, 5, 2, 12]

/-- 41_tables.md R140, row-major (R134). -/
def sromS4 : List Nat :=
  [7, 13, 14, 3, 0, 6, 9, 10, 1, 2, 8, 5, 11, 12, 4, 15,
   13, 8, 11, 5, 6, 15, 0, 3, 4, 7, 2, 12, 1, 10, 14, 9,
   10, 6, 9, 0, 12, 11, 7, 13, 15, 1, 3, 14, 5, 2, 8, 4,
   3, 15, 0, 6, 10, 1, 13, 8, 9, 4, 5, 11, 12, 7, 2, 14]

/-- 41_tables.md R141, row-major (R134). -/
def sromS5 : List Nat :=
  [2, 12, 4, 1, 7, 10, 11, 6, 8, 5, 3, 15, 13, 0, 14, 9,
   14, 11, 2, 12, 4, 7, 13, 1, 5, 0, 15, 10, 3, 9, 8, 6,
   4, 2, 1, 11, 10, 13, 7, 8, 15, 9, 12, 5, 6, 3, 0, 14,
   11, 8, 12, 7, 1, 14, 2, 13, 6, 15, 0, 9, 10, 4, 5, 3]

/-- 41_tables.md R142, row-major (R134). -/
def sromS6 : List Nat :=
  [12, 1, 10, 15, 9, 2, 6, 8, 0, 13, 3, 4, 14, 7, 5, 11,
   10, 15, 4, 2, 7, 12, 9, 5, 6, 1, 13, 14, 0, 11, 3, 8,
   9, 14, 15, 5, 2, 8, 12, 3, 7, 0, 4, 10, 1, 13, 11, 6,
   4, 3, 2, 12, 9, 5, 15, 10, 11, 14, 1, 7, 6, 0, 8, 13]

/-- 41_tables.md R143, row-major (R134). -/
def sromS7 : List Nat :=
  [4, 11, 2, 14, 15, 0, 8, 13, 3, 12, 9, 7, 5, 10, 6, 1,
   13, 0, 11, 7, 4, 9, 1, 10, 14, 3, 5, 12, 2, 15, 8, 6,
   1, 4, 11, 13, 12, 3, 7, 14, 10, 15, 6, 8, 0, 5, 9, 2,
   6, 11, 13, 8, 1, 4, 10, 7, 9, 5, 0, 15, 14, 2, 3, 12]

/-- 41_tables.md R144, row-major (R134). -/
def sromS8 : List Nat :=
  [13, 2, 8, 4, 6, 15, 11, 1, 10, 9, 3, 14, 5, 0, 12, 7,
   1, 15, 13, 8, 10, 3, 7, 4, 12, 5, 6, 11, 0, 14, 9, 2,
   7, 11, 4, 1, 9, 12, 14, 2, 0, 6, 10, 13, 15, 3, 5, 8,
   2, 1, 14, 7, 4, 10, 8, 13, 15, 12, 9, 0, 3, 5, 6, 11]

/-- `PROM[t]`: the entries of a position table, entry index 0 first (20_memory.md R51). -/
def prom : PosTable → List Nat
  | .ip => promIp
  | .ipInverse => promIpInverse
  | .e => promE
  | .p => promP
  | .pc1 => promPc1
  | .pc2 => promPc2

/-- `SROM[n]`: the entries of a substitution table by linear address (20_memory.md R52). -/
def srom : SBox → List Nat
  | .s1 => sromS1
  | .s2 => sromS2
  | .s3 => sromS3
  | .s4 => sromS4
  | .s5 => sromS5
  | .s6 => sromS6
  | .s7 => sromS7
  | .s8 => sromS8

/-- `N_out(t)`: the number of entries, which is the output width (20_memory.md R51). -/
def nOut : PosTable → Nat
  | .ip => 64
  | .ipInverse => 64
  | .e => 48
  | .p => 32
  | .pc1 => 56
  | .pc2 => 48

/-- `N_req(t)`: the input length a position table requires (41_tables.md R121). -/
def nReq : PosTable → Nat
  | .ip => 64
  | .ipInverse => 64
  | .e => 32
  | .p => 32
  | .pc1 => 64
  | .pc2 => 56

/-- `perm(t, s)`: `o[i] = s[PROM[t][i] - 1]` for `0 <= i < n`, where `n` is `N_out(t)` wherever it is used
(41_tables.md R120). A position past the end of `s` reads as 0; the length checks of R121 come before every use by a
command, so none reaches that case (log 11). -/
def perm {m : Nat} (n : Nat) (t : PosTable) (s : BitVec m) : BitVec n :=
  bitsOf (fun i => s.getMsbD ((prom t).getD i 0 - 1)) n

/-- `row = 2*x[0] + x[5]` (41_tables.md R135). -/
def sboxRow (x : BitVec 6) : Nat := 2 * (x.getMsbD 0).toNat + (x.getMsbD 5).toNat

/-- `col = 8*x[1] + 4*x[2] + 2*x[3] + x[4]` (41_tables.md R135). -/
def sboxCol (x : BitVec 6) : Nat :=
  8 * (x.getMsbD 1).toNat + 4 * (x.getMsbD 2).toNat + 2 * (x.getMsbD 3).toNat + (x.getMsbD 4).toNat

/-- `addr = 16*row + col` (41_tables.md R135). -/
def sboxAddr (x : BitVec 6) : Nat := 16 * sboxRow x + sboxCol x

/-- `sub(n, x) = bits_4(SROM[n][addr])`, most significant bit first (41_tables.md R136). -/
def sub (b : SBox) (x : BitVec 6) : BitVec 4 := BitVec.ofNat 4 ((srom b).getD (sboxAddr x) 0)

end Sys2Proof.Machine
end

