-- ==== Sys2Proof/Machine/Ops.lean ====
section
/-! DEFINITION. The operations the meanings share: completing a command, fault entry (the one way a fault is taken,
60_exceptions.md R214; there is no return from it, R220), the key schedule `RK` (42_key_schedule.md R162 to R164), the
round function and the Feistel round (43_feistel.md R180, R184), and `CRYPT` (R187). -/

namespace Sys2Proof.Machine

/-! ### Completing a command -/

/-- A command's data result: the bus that carries it and its length (10_state.md R24). -/
structure Result where
  bits : Bus
  len : Len
deriving DecidableEq, Repr

/-- The result that is the sequence `s` (10_state.md R24). -/
def Result.of {n : Nat} (s : BitVec n) : Result := ⟨bus s, BitVec.ofNat 7 n⟩

/-- No data result: `DOUT` and `OLEN` become 0 (10_state.md R24). -/
def Result.none : Result := ⟨0#64, 0#7⟩

/-- The writes of a completion, successful or not: the result, `ERRK`, the fault record, `DONE <- 1`; the engine is idle
and the in-flight registers are cleared (10_state.md R30, R35). -/
def finish (s : State) (res : Result) (errk : BitVec 2) (e g : Len) (w : Word) : State :=
  { s with
    dout := res.bits, olen := res.len, st := stOf false true errk, exp := e, got := g, ecmd := w
    ph := .idle, rnd := 0#5, dirq := .forward, l := 0#32, r := 0#32 }

/-- Successful completion with a result: `ERRK`, `EXP`, `GOT`, `ECMD` are 0 (10_state.md R25, R26). -/
def complete (s : State) (res : Result) : State := finish s res 0#2 0#7 0#7 0#16

/-- Fault entry (60_exceptions.md R214): the kind and its values are recorded with the faulting word, the result is
cleared, the engine is ready for the next command, and `KEY`, `KLEN` keep their values. -/
def raise (s : State) (k : Raise) (w : Word) : State := finish s Result.none k.errk k.exp k.got w

/-- A one-step command's end: its result, or the fault it raised (10_state.md R30 case c). -/
def settle (s : State) (w : Word) : Except Raise Result → State
  | .ok res => complete s res
  | .error k => raise s k w

/-! ### The key schedule -/

/-- `SHIFTS[1..16]` (42_key_schedule.md R162). -/
def shifts : List Nat := [1, 1, 2, 2, 2, 2, 2, 2, 1, 2, 2, 2, 2, 2, 2, 1]

/-- `CUM(r) = SHIFTS[1] + ... + SHIFTS[r]` (42_key_schedule.md R162). -/
def cum (r : Nat) : Nat := (shifts.take r).sum

/-- `ROT(round, Forward) = CUM(round)`, `ROT(round, Reverse) = CUM(17 - round)` (42_key_schedule.md R163). -/
def rot (round : Nat) : Direction → Nat
  | .forward => cum round
  | .reverse => cum (17 - round)

/-- Steps 2 and 3 of `RK`: rotate each half of the unrotated `PC1` output by `n`, join, apply `PC2`
(42_key_schedule.md R164). -/
def roundKey (cd : BitVec 56) (n : Nat) : BitVec 48 :=
  let c := rotl (slice cd 0 28) n
  let d := rotl (slice cd 28 28) n
  perm 48 .pc2 (c ++ d)

/-- `RK(round, dir)` (42_key_schedule.md R164): the length of the key is checked first, then the round. -/
def rk (key : Bus) (klen : Len) (round : Nat) (dir : Direction) : Except Raise (BitVec 48) :=
  if klen.toNat < 64 then .error (.invalidLength 64#7 klen)
  else if round < 1 ∨ 16 < round then .error (.invalidRound (BitVec.ofNat 7 round))
  else .ok (roundKey (perm 56 .pc1 (masterKey key klen)) (rot round dir))

/-! ### The round -/

/-- The eight S-boxes on the eight 6-bit groups of `X`, group `i` to `S(i+1)`, outputs joined in order
(43_feistel.md R180 steps b and c). -/
def substitute (x : BitVec 48) : BitVec 32 :=
  sub .s1 (slice x 0 6) ++ sub .s2 (slice x 6 6) ++ sub .s3 (slice x 12 6) ++ sub .s4 (slice x 18 6) ++
    sub .s5 (slice x 24 6) ++ sub .s6 (slice x 30 6) ++ sub .s7 (slice x 36 6) ++ sub .s8 (slice x 42 6)

/-- The round function `f(right, k) = P(S(E(right) ^ k))` (43_feistel.md R180). -/
def feistel (right : BitVec 32) (k : BitVec 48) : BitVec 32 := perm 32 .p (substitute (perm 48 .e right ^^^ k))

/-- The two halves of a block in a round (43_feistel.md R184). -/
structure Halves where
  left : BitVec 32
  right : BitVec 32
deriving DecidableEq, Repr

/-- `T[0..32)` and `T[32..64)` (43_feistel.md R187). -/
def splitBlock (t : BitVec 64) : Halves := ⟨slice t 0 32, slice t 32 32⟩

/-- `ROUND(left, right, k) = (right, left ^ f(right, k))` (43_feistel.md R184). -/
def round (h : Halves) (k : BitVec 48) : Halves := ⟨h.right, h.left ^^^ feistel h.right k⟩

/-- The final join `right ++ left` and `IP_INVERSE` (43_feistel.md R185, R187). -/
def joinBlock (h : Halves) : BitVec 64 := perm 64 .ipInverse (h.right ++ h.left)

/-! ### Encode and decode, in closed form -/

/-- Rounds 1, 2, ..., n of `CRYPT`'s loop, in this order (43_feistel.md R187). -/
def cryptRounds (key : Bus) (klen : Len) (dir : Direction) : Nat → Halves → Except Raise Halves
  | 0, h => .ok h
  | n + 1, h =>
    match cryptRounds key klen dir n h with
    | .error e => .error e
    | .ok h' =>
      match rk key klen (n + 1) dir with
      | .error e => .error e
      | .ok k => .ok (round h' k)

/-- `CRYPT(B, dir)` (43_feistel.md R187). -/
def crypt (key : Bus) (klen : Len) (dir : Direction) (b : BitVec 64) : Except Raise (BitVec 64) :=
  (cryptRounds key klen dir Config.rounds (splitBlock (perm 64 .ip b))).map joinBlock

end Sys2Proof.Machine
end

