-- ==== Sys2Proof/Machine/Feistel.lean ====
section
/-! DEFINITION. The commands of `feistel_round_processor`: `FRD` (43_feistel.md R186), and the accept steps of `ENC` and
`DEC` (R190). What `ENC` and `DEC` do after their accept step is the sequencer's round step (Machine/Sequencer.lean). -/

namespace Sys2Proof.Machine

/-- The value of `FRD`: block length, key length, round, in this order; then one round, with the swap, joined `a ++ b`
(43_feistel.md R186). -/
def frdValue (dir : Direction) (r : Idx) (s : State) : Except Raise Result :=
  if s.operandLen ≠ 64#7 then .error (.invalidLength 64#7 s.operandLen)
  else
    match rk s.key s.klen r.toNat dir with
    | .error e => .error e
    | .ok k =>
      let h := round (splitBlock s.operand) k
      .ok (Result.of (h.left ++ h.right))

/-- `FRD round, dir` (43_feistel.md R186). -/
def execFrd (dir : Direction) (r : Idx) (s : State) : Host.Outcome State Fault Refusal :=
  .next (settle s (encode (.frd dir r)) (frdValue dir r s))

/-- The word of the command that runs in a direction: 0x2000 for `Forward`, 0x3000 for `Reverse` (43_feistel.md R191). -/
def cryptWord : Direction → Word
  | .forward => encode .enc
  | .reverse => encode .dec

/-- The start of a run: `L`, `R` are the halves of `perm(IP, OP)`, round 1 is next, `BUSY` becomes 1 and `DONE` 0; `ERRK`
and every other register keep their values (43_feistel.md R190, log 2). -/
def startRun (dir : Direction) (s : State) : State :=
  let h := splitBlock (perm 64 .ip s.operand)
  { s with l := h.left, r := h.right, dirq := dir, rnd := 1#5, ph := .run, st := stOf true false s.errk }

/-- The accept step of `ENC` or `DEC`: the block must be exactly 64 bits (43_feistel.md R190). -/
def acceptCrypt (dir : Direction) (s : State) : State :=
  if s.operandLen ≠ 64#7 then raise s (.invalidLength 64#7 s.operandLen) (cryptWord dir)
  else startRun dir s

/-- `ENC` (43_feistel.md R188, R190). -/
def execEnc (s : State) : Host.Outcome State Fault Refusal := .next (acceptCrypt .forward s)

/-- `DEC` (43_feistel.md R189, R190). -/
def execDec (s : State) : Host.Outcome State Fault Refusal := .next (acceptCrypt .reverse s)

end Sys2Proof.Machine
end

