-- ==== Sys2Proof/Machine/KeySchedule.lean ====
section
/-! DEFINITION. The commands of `key_schedule_engine`: `LDK` (42_key_schedule.md R161) and `DRK` (R165). -/

namespace Sys2Proof.Machine

/-- `LDK`: the key and its declared length are replaced whole; no data result and no fault, whatever `DLEN` is
(42_key_schedule.md R161). -/
def execLdk (s : State) : Host.Outcome State Fault Refusal :=
  .next (complete { s with key := s.operand, klen := s.operandLen } Result.none)

/-- `DRK round, dir`: the 48-bit round key (42_key_schedule.md R165). -/
def execDrk (dir : Direction) (r : Idx) (s : State) : Host.Outcome State Fault Refusal :=
  .next (settle s (encode (.drk dir r)) ((rk s.key s.klen r.toNat dir).map Result.of))

end Sys2Proof.Machine
end

