-- ==== Sys2Proof/Machine/TableAccess.lean ====
section
/-! DEFINITION. The commands of `bit_permutation_lut` and `sbox_lut_array`: `SHF` (41_tables.md R122) and `TRD` (R125). -/

namespace Sys2Proof.Machine

/-- `SHF` of a position table: a minimum length, then `perm` (41_tables.md R121, R122). -/
def shfPos (t : PosTable) (s : State) : Except Raise Result :=
  if s.operandLen.toNat < nReq t then .error (.invalidLength (BitVec.ofNat 7 (nReq t)) s.operandLen)
  else .ok (Result.of (perm (nOut t) t s.operand))

/-- `SHF` of an S-box: exactly 6 bits, then `sub` (41_tables.md R122, R136). -/
def shfBox (b : SBox) (s : State) : Except Raise Result :=
  if s.operandLen ≠ 6#7 then .error (.invalidLength 6#7 s.operandLen)
  else .ok (Result.of (sub b (seq s.operand 6)))

/-- `TRD` of a position table: the 1-indexed position, 7 bits; an index past the table is an illegal word
(41_tables.md R125, 30_encoding.md R73, log 10). -/
def trdPos (t : PosTable) (i : Idx) : Except Raise Result :=
  if i.toNat < nOut t then .ok (Result.of (BitVec.ofNat 7 ((prom t).getD i.toNat 0)))
  else .error .illegalCommand

/-- `TRD` of an S-box: the entry at the linear address, 4 bits (41_tables.md R125). -/
def trdBox (b : SBox) (i : Idx) : Except Raise Result :=
  .ok (Result.of (BitVec.ofNat 4 ((srom b).getD i.toNat 0)))

/-- `SHF IP` (41_tables.md R122; `N_req` 64, result 64 bits). -/
def execShfIp (s : State) : Host.Outcome State Fault Refusal :=
  .next (settle s (encode .shfIp) (shfPos .ip s))

/-- `SHF IP_INVERSE` (41_tables.md R122; `N_req` 64, result 64 bits). -/
def execShfIpInverse (s : State) : Host.Outcome State Fault Refusal :=
  .next (settle s (encode .shfIpInverse) (shfPos .ipInverse s))

/-- `SHF E` (41_tables.md R122; `N_req` 32, result 48 bits). -/
def execShfE (s : State) : Host.Outcome State Fault Refusal :=
  .next (settle s (encode .shfE) (shfPos .e s))

/-- `SHF P` (41_tables.md R122; `N_req` 32, result 32 bits). -/
def execShfP (s : State) : Host.Outcome State Fault Refusal :=
  .next (settle s (encode .shfP) (shfPos .p s))

/-- `SHF PC1` (41_tables.md R122; `N_req` 64, result 56 bits). -/
def execShfPc1 (s : State) : Host.Outcome State Fault Refusal :=
  .next (settle s (encode .shfPc1) (shfPos .pc1 s))

/-- `SHF PC2` (41_tables.md R122; `N_req` 56, result 48 bits). -/
def execShfPc2 (s : State) : Host.Outcome State Fault Refusal :=
  .next (settle s (encode .shfPc2) (shfPos .pc2 s))

/-- `SHF S1` (41_tables.md R122; exactly 6 bits, result 4 bits). -/
def execShfS1 (s : State) : Host.Outcome State Fault Refusal :=
  .next (settle s (encode .shfS1) (shfBox .s1 s))

/-- `SHF S2` (41_tables.md R122; exactly 6 bits, result 4 bits). -/
def execShfS2 (s : State) : Host.Outcome State Fault Refusal :=
  .next (settle s (encode .shfS2) (shfBox .s2 s))

/-- `SHF S3` (41_tables.md R122; exactly 6 bits, result 4 bits). -/
def execShfS3 (s : State) : Host.Outcome State Fault Refusal :=
  .next (settle s (encode .shfS3) (shfBox .s3 s))

/-- `SHF S4` (41_tables.md R122; exactly 6 bits, result 4 bits). -/
def execShfS4 (s : State) : Host.Outcome State Fault Refusal :=
  .next (settle s (encode .shfS4) (shfBox .s4 s))

/-- `SHF S5` (41_tables.md R122; exactly 6 bits, result 4 bits). -/
def execShfS5 (s : State) : Host.Outcome State Fault Refusal :=
  .next (settle s (encode .shfS5) (shfBox .s5 s))

/-- `SHF S6` (41_tables.md R122; exactly 6 bits, result 4 bits). -/
def execShfS6 (s : State) : Host.Outcome State Fault Refusal :=
  .next (settle s (encode .shfS6) (shfBox .s6 s))

/-- `SHF S7` (41_tables.md R122; exactly 6 bits, result 4 bits). -/
def execShfS7 (s : State) : Host.Outcome State Fault Refusal :=
  .next (settle s (encode .shfS7) (shfBox .s7 s))

/-- `SHF S8` (41_tables.md R122; exactly 6 bits, result 4 bits). -/
def execShfS8 (s : State) : Host.Outcome State Fault Refusal :=
  .next (settle s (encode .shfS8) (shfBox .s8 s))

/-- `TRD IP, i` (41_tables.md R125; 64 entries, result 7 bits). -/
def execTrdIp (i : Idx) (s : State) : Host.Outcome State Fault Refusal :=
  .next (settle s (encode (.trdIp i)) (trdPos .ip i))

/-- `TRD IP_INVERSE, i` (41_tables.md R125; 64 entries, result 7 bits). -/
def execTrdIpInverse (i : Idx) (s : State) : Host.Outcome State Fault Refusal :=
  .next (settle s (encode (.trdIpInverse i)) (trdPos .ipInverse i))

/-- `TRD E, i` (41_tables.md R125; 48 entries, result 7 bits). -/
def execTrdE (i : Idx) (s : State) : Host.Outcome State Fault Refusal :=
  .next (settle s (encode (.trdE i)) (trdPos .e i))

/-- `TRD P, i` (41_tables.md R125; 32 entries, result 7 bits). -/
def execTrdP (i : Idx) (s : State) : Host.Outcome State Fault Refusal :=
  .next (settle s (encode (.trdP i)) (trdPos .p i))

/-- `TRD PC1, i` (41_tables.md R125; 56 entries, result 7 bits). -/
def execTrdPc1 (i : Idx) (s : State) : Host.Outcome State Fault Refusal :=
  .next (settle s (encode (.trdPc1 i)) (trdPos .pc1 i))

/-- `TRD PC2, i` (41_tables.md R125; 48 entries, result 7 bits). -/
def execTrdPc2 (i : Idx) (s : State) : Host.Outcome State Fault Refusal :=
  .next (settle s (encode (.trdPc2 i)) (trdPos .pc2 i))

/-- `TRD S1, i` (41_tables.md R125; 64 entries, result 4 bits). -/
def execTrdS1 (i : Idx) (s : State) : Host.Outcome State Fault Refusal :=
  .next (settle s (encode (.trdS1 i)) (trdBox .s1 i))

/-- `TRD S2, i` (41_tables.md R125; 64 entries, result 4 bits). -/
def execTrdS2 (i : Idx) (s : State) : Host.Outcome State Fault Refusal :=
  .next (settle s (encode (.trdS2 i)) (trdBox .s2 i))

/-- `TRD S3, i` (41_tables.md R125; 64 entries, result 4 bits). -/
def execTrdS3 (i : Idx) (s : State) : Host.Outcome State Fault Refusal :=
  .next (settle s (encode (.trdS3 i)) (trdBox .s3 i))

/-- `TRD S4, i` (41_tables.md R125; 64 entries, result 4 bits). -/
def execTrdS4 (i : Idx) (s : State) : Host.Outcome State Fault Refusal :=
  .next (settle s (encode (.trdS4 i)) (trdBox .s4 i))

/-- `TRD S5, i` (41_tables.md R125; 64 entries, result 4 bits). -/
def execTrdS5 (i : Idx) (s : State) : Host.Outcome State Fault Refusal :=
  .next (settle s (encode (.trdS5 i)) (trdBox .s5 i))

/-- `TRD S6, i` (41_tables.md R125; 64 entries, result 4 bits). -/
def execTrdS6 (i : Idx) (s : State) : Host.Outcome State Fault Refusal :=
  .next (settle s (encode (.trdS6 i)) (trdBox .s6 i))

/-- `TRD S7, i` (41_tables.md R125; 64 entries, result 4 bits). -/
def execTrdS7 (i : Idx) (s : State) : Host.Outcome State Fault Refusal :=
  .next (settle s (encode (.trdS7 i)) (trdBox .s7 i))

/-- `TRD S8, i` (41_tables.md R125; 64 entries, result 4 bits). -/
def execTrdS8 (i : Idx) (s : State) : Host.Outcome State Fault Refusal :=
  .next (settle s (encode (.trdS8 i)) (trdBox .s8 i))

end Sys2Proof.Machine
end

