-- ==== Sys2Proof/Machine/Dispatch.lean ====
section
/-! DEFINITION. The meaning of every command, one arm per constructor of `Instr`. -/

namespace Sys2Proof.Machine

def exec (i : Instr) (s : State) : Host.Outcome State Fault Refusal :=
  match i with
  | .ldk => Sys2Proof.Machine.execLdk s
  | .enc => Sys2Proof.Machine.execEnc s
  | .dec => Sys2Proof.Machine.execDec s
  | .drk d r => Sys2Proof.Machine.execDrk d r s
  | .frd d r => Sys2Proof.Machine.execFrd d r s
  | .shfIp => Sys2Proof.Machine.execShfIp s
  | .shfIpInverse => Sys2Proof.Machine.execShfIpInverse s
  | .shfE => Sys2Proof.Machine.execShfE s
  | .shfP => Sys2Proof.Machine.execShfP s
  | .shfPc1 => Sys2Proof.Machine.execShfPc1 s
  | .shfPc2 => Sys2Proof.Machine.execShfPc2 s
  | .shfS1 => Sys2Proof.Machine.execShfS1 s
  | .shfS2 => Sys2Proof.Machine.execShfS2 s
  | .shfS3 => Sys2Proof.Machine.execShfS3 s
  | .shfS4 => Sys2Proof.Machine.execShfS4 s
  | .shfS5 => Sys2Proof.Machine.execShfS5 s
  | .shfS6 => Sys2Proof.Machine.execShfS6 s
  | .shfS7 => Sys2Proof.Machine.execShfS7 s
  | .shfS8 => Sys2Proof.Machine.execShfS8 s
  | .trdIp k => Sys2Proof.Machine.execTrdIp k s
  | .trdIpInverse k => Sys2Proof.Machine.execTrdIpInverse k s
  | .trdE k => Sys2Proof.Machine.execTrdE k s
  | .trdP k => Sys2Proof.Machine.execTrdP k s
  | .trdPc1 k => Sys2Proof.Machine.execTrdPc1 k s
  | .trdPc2 k => Sys2Proof.Machine.execTrdPc2 k s
  | .trdS1 k => Sys2Proof.Machine.execTrdS1 k s
  | .trdS2 k => Sys2Proof.Machine.execTrdS2 k s
  | .trdS3 k => Sys2Proof.Machine.execTrdS3 k s
  | .trdS4 k => Sys2Proof.Machine.execTrdS4 k s
  | .trdS5 k => Sys2Proof.Machine.execTrdS5 k s
  | .trdS6 k => Sys2Proof.Machine.execTrdS6 k s
  | .trdS7 k => Sys2Proof.Machine.execTrdS7 k s
  | .trdS8 k => Sys2Proof.Machine.execTrdS8 k s

end Sys2Proof.Machine
end

