-- ==== Sys2Proof/Machine/Sequencer.lean ====
section
/-! DEFINITION. The sequencer: the four kinds of step of 10_state.md R30, and the command level of R31. -/

namespace Sys2Proof.Machine

/-- The reset step, whatever the phase and whatever the other ports carry (70_reset_and_hazards.md R250, R251). What the
host drives later is not the engine's to clear. -/
def resetStep (s : State) : State := { State.reset with inputs := s.inputs }

/-- The fault of an illegal word, raised in its accept step (30_encoding.md R73, 60_exceptions.md R213). -/
def illegalWord (s : State) : State := raise s .illegalCommand s.ports.cmd

/-- The round step (43_feistel.md R191). `RK` can raise only when `RND = 1` and `KLEN < 64`, or in a state that no run
reaches (log 3). -/
def roundStep (s : State) : State :=
  match rk s.key s.klen s.rnd.toNat s.dirq with
  | .error e => raise s e (cryptWord s.dirq)
  | .ok k =>
    let h := round ⟨s.l, s.r⟩ k
    if s.rnd.toNat < Config.rounds then { s with l := h.left, r := h.right, rnd := s.rnd + 1#5 }
    else complete s (Result.of (joinBlock h))

/-- The accept step (10_state.md R30 case c): the command decoded from `CMD`, or the fault of an illegal word. -/
def acceptStep (s : State) : Host.Outcome State Fault Refusal :=
  match decode s.ports.cmd with
  | .ok i => exec i s
  | .error _ => .next (illegalWord s)

/-- One step of the engine, chosen by the state and the ports (10_state.md R30 cases a to d). -/
def engineStep (s : State) : Host.Outcome State Fault Refusal :=
  if s.ports.rst then .next (resetStep s)
  else
    match s.ph with
    | .run => .next (roundStep s)
    | .idle => if s.ports.cmdValid then acceptStep s else .next s

/-- The step is over: the host's next port sample is in force (log 1). -/
def advance (s : State) : State := { s with inputs := s.inputs.tail }

/-- `advance` after whatever a step answered. -/
def advanceOutcome : Host.Outcome State Fault Refusal → Host.Outcome State Fault Refusal
  | .next t => .next (advance t)
  | .fault f => .fault f
  | .refused r => .refused r

/-- The ports when the host presents a command word, keeping `DIN` and `DLEN` as they are (10_state.md R27, R30 case c). -/
def Ports.present (p : Ports) (w : Word) : Ports := { p with rst := false, cmdValid := true, cmd := w }

/-- A state in which this step is the accept step of the word `w`: the ports present it, and the engine is idle with its
in-flight registers clear (10_state.md R30 case c, R37). -/
def presentWord (s : State) (w : Word) : State :=
  { s with
    inputs := s.ports.present w :: s.inputs.tail
    ph := .idle, rnd := 0#5, dirq := .forward, l := 0#32, r := 0#32, st := stOf false s.done s.errk }

/-- `ENC` or `DEC` in closed form (43_feistel.md R188, R189): the state its last step leaves, in terms of the state its
accept step finds. -/
def cryptCommand (dir : Direction) (s : State) : State :=
  settle s (cryptWord dir)
    (if s.operandLen ≠ 64#7 then .error (.invalidLength 64#7 s.operandLen)
     else (crypt s.key s.klen dir s.operand).map Result.of)

/-- The command level (10_state.md R31): what a whole command does to the state, in one piece. Only `ENC` and `DEC` take
more than one step. -/
def execCommand (i : Instr) (s : State) : Host.Outcome State Fault Refusal :=
  if i = .enc then .next (cryptCommand .forward s)
  else if i = .dec then .next (cryptCommand .reverse s)
  else exec i s

/-- Steps from the accept step to the step that sets `DONE`, both included (70_reset_and_hazards.md R259), from the command
word, `DLEN` and `KLEN` alone (R258). -/
def latency (w : Word) (dlen klen : Len) : Nat :=
  if w = encode .enc ∨ w = encode .dec then
    if dlen ≠ 64#7 then Config.latSimple
    else if klen.toNat < 64 then Config.latKeyFault
    else Config.latCrypt
  else Config.latSimple

end Sys2Proof.Machine
end

