-- ==== Sys2Proof/Machine/Step.lean ====
section
/-! DEFINITION. One step of the machine: the engine's step on this step's port sample, then the next sample
(10_state.md R30, log 1). -/

namespace Sys2Proof.Machine

/-- One step (10_state.md R30). -/
def step (s : State) : Host.Outcome State Fault Refusal := advanceOutcome (engineStep s)

/-- `s` with the command word whose `nbits` low bits are `w` (the rest zero) presented on the ports of this very step, the
engine idle, so that the step accepts and runs exactly it. There is no instruction fetch: a program is what the host
presents (10_state.md R29, log 1). -/
def State.withFetchWord (s : State) (nbits w : Nat) : State := presentWord s (BitVec.ofNat 16 (w % 2 ^ nbits))

end Sys2Proof.Machine
end

