-- ==== Sys2Proof/Safety.lean ====
section
/-! DEFINITION. The terms claims are stated in: what a successful completion and a fault entry leave (10_state.md R24 to
R26, 60_exceptions.md R214), the invariants of 10_state.md R37 and of the sequencer, what the host drives, and readings
of the datapath that name single bits. -/

namespace Sys2Proof.Machine

/-- The next state, where a step answers one. -/
def nextState : Host.Outcome State Fault Refusal → Option State
  | .next t => some t
  | .fault _ => none
  | .refused _ => none

/-! ### How a command ends -/

/-- `t` is `s` after a success with an `n`-bit result whose bit at index `i` is `bit i`: `DOUT` is zero below it, `ERRK`
and the fault record are 0, `DONE` is 1, the in-flight registers are clear, and nothing else differs
(10_state.md R24 to R26, R35). -/
def Completed (s t : State) (n : Nat) (bit : Nat → Bool) : Prop :=
  t = { s with
    dout := t.dout, olen := BitVec.ofNat 7 n, st := 0b0100#4, exp := 0#7, got := 0#7, ecmd := 0#16
    ph := .idle, rnd := 0#5, dirq := .forward, l := 0#32, r := 0#32 } ∧
  ∀ i < 64, t.dout.getMsbD i = (decide (i < n) && bit i)

/-- `t` is `s` after a fault with the code `code`, the values `e`, `g` and the faulting word `w`: no result, `DONE` is 1,
the in-flight registers are clear, and nothing else differs, `KEY` and `KLEN` among it (60_exceptions.md R214). -/
def Faulted (s t : State) (code : BitVec 2) (e g : Len) (w : Word) : Prop :=
  t = { s with
    dout := 0#64, olen := 0#7, st := 0b01#2 ++ code, exp := e, got := g, ecmd := w
    ph := .idle, rnd := 0#5, dirq := .forward, l := 0#32, r := 0#32 }

/-! ### Invariants -/

/-- The invariants of 10_state.md R37. -/
structure StateInv (s : State) : Prop where
  olen_le : s.olen.toNat ≤ 64
  dout_clear : ∀ i < 64, s.olen.toNat ≤ i → s.dout.getMsbD i = false
  key_clear : ∀ i < 64, min s.klen.toNat 64 ≤ i → s.key.getMsbD i = false
  busy_iff_run : s.busy = true ↔ s.ph = .run
  run_iff_round : s.ph = .run ↔ 1 ≤ s.rnd.toNat ∧ s.rnd.toNat ≤ 16
  done_not_busy : s.done = true → s.busy = false
  fault_no_result : s.errk ≠ 0#2 → s.dout = 0#64 ∧ s.olen = 0#7
  success_no_record : s.errk = 0#2 → s.exp = 0#7 ∧ s.got = 0#7 ∧ s.ecmd = 0#16
  idle_clear : s.ph = .idle → s.l = 0#32 ∧ s.r = 0#32 ∧ s.rnd = 0#5 ∧ s.dirq = .forward

/-- A run past its first round has passed the key check (43_feistel.md R187, R191). -/
def KeyChecked (s : State) : Prop := s.ph = .run → 1 < s.rnd.toNat → 64 ≤ s.klen.toNat

/-- `OLEN` holds one of the values written (10_state.md R33, number 4). -/
def LegalOlen (s : State) : Prop := s.olen ∈ [0#7, 4#7, 7#7, 32#7, 48#7, 56#7, 64#7]

/-! ### Words -/

/-- `N_entries` of a table-select code (30_encoding.md R73). -/
def entriesOfCode (tbl : Nat) : Nat := if tbl = 2 ∨ tbl = 5 then 48 else if tbl = 3 then 32 else if tbl = 4 then 56 else 64

/-- The illegal words, by arithmetic on the word (30_encoding.md R70, R73). -/
def IllegalWord (w : Word) : Prop :=
  let op := w.toNat / 4096
  let tbl := w.toNat / 256 % 16
  let dir := w.toNat / 128 % 2
  let z := w.toNat / 64 % 2
  let idx := w.toNat % 64
  op = 0 ∨ 8 ≤ op ∨ z = 1 ∨
    ((op = 1 ∨ op = 2 ∨ op = 3) ∧ (tbl ≠ 0 ∨ dir ≠ 0 ∨ idx ≠ 0)) ∨
    ((op = 4 ∨ op = 5) ∧ tbl ≠ 0) ∨
    (op = 6 ∧ (tbl = 6 ∨ tbl = 7 ∨ dir ≠ 0 ∨ idx ≠ 0)) ∨
    (op = 7 ∧ (tbl = 6 ∨ tbl = 7 ∨ dir ≠ 0 ∨ entriesOfCode tbl ≤ idx))

/-- The number `DIR` adds to a word (30_encoding.md R78). -/
def dirValue : Direction → Nat
  | .forward => 0
  | .reverse => 0x80

/-! ### What the host drives -/

/-- This step is an accept step (10_state.md R30 case c). -/
def Accepts (s : State) : Prop := s.ports.rst = false ∧ s.ph = .idle ∧ s.ports.cmdValid = true

/-- The host keeps `rst = 0` in this step and the `n - 1` steps after it; it drives the other ports as it likes. -/
def NoReset (n : Nat) (s : State) : Prop := ∀ k < n, (s.inputs.getD k Ports.quiet).rst = false

/-! ### The datapath bit by bit -/

/-- The index, in the unrotated `PC1` output, of the bit that bit `p` of `C ++ D` holds after both halves are rotated left
by `n` (42_key_schedule.md R164, 40_bitsequence.md R103). -/
def rotatedIndex (n p : Nat) : Nat := if p < 28 then (p + n) % 28 else 28 + (p - 28 + n) % 28

/-- Bit `j` of the round key with rotation amount `n`, as a bit of the key (42_key_schedule.md R164). -/
def roundKeyBit (key : Bus) (n j : Nat) : Bool :=
  key.getMsbD ((prom .pc1).getD (rotatedIndex n ((prom .pc2).getD j 0 - 1)) 0 - 1)

/-- `k` is the round key of a round and direction under a key (42_key_schedule.md R163, R164). -/
def IsRoundKey (key : Bus) (r : Nat) (d : Direction) (k : BitVec 48) : Prop :=
  ∀ j < 48, k.getMsbD j = roundKeyBit key (rot r d) j

/-- The number whose six bits, first bit highest, are `x 0 .. x 5` (00_scope.md R11). -/
def sixBits (x : Nat → Bool) : Nat :=
  32 * (x 0).toNat + 16 * (x 1).toNat + 8 * (x 2).toNat + 4 * (x 3).toNat + 2 * (x 4).toNat + (x 5).toNat

/-- The entry an S-box gives for the input value `v`, by the equivalent reading of 41_tables.md R135:
`row = 2*(v div 32) + (v mod 2)`, `col = (v div 2) mod 16`. -/
def sboxEntry (b : SBox) (v : Nat) : Nat := (srom b).getD (16 * (2 * (v / 32) + v % 2) + v / 2 % 16) 0

/-- The box of group `g`: group `g` goes to `S(g+1)` (43_feistel.md R180 step c). -/
def boxOfGroup (g : Nat) : SBox := [SBox.s1, .s2, .s3, .s4, .s5, .s6, .s7, .s8].getD g .s1

/-- Bit `j` of `f(right, k)` (43_feistel.md R180): output bit `j` is bit `P[j]` of the joined S-box outputs, which is bit
`q mod 4` of box `q div 4`, whose input is a 6-bit group of `E(right) ^ k`. -/
def feistelBit (right : BitVec 32) (k : BitVec 48) (j : Nat) : Bool :=
  let q := (prom .p).getD j 0 - 1
  let x := fun m => (right.getMsbD ((prom .e).getD m 0 - 1)).xor (k.getMsbD m)
  (sboxEntry (boxOfGroup (q / 4)) (sixBits fun m => x (6 * (q / 4) + m))).testBit (3 - q % 4)

/-- The two 32-bit halves of a block exchanged (43_feistel.md R186). -/
def swapHalves (b : Bus) : Bus := (b.extractLsb' 0 32 ++ b.extractLsb' 32 32 : BitVec (32 + 32))

/-- Two states that differ at most in what the host drives later. -/
def SameMachine (s t : State) : Prop := { s with inputs := t.inputs } = t

end Sys2Proof.Machine
end

