-- ==== Sys2Proof/Certificates/Slice0/Obligations.lean ====
section
/-! DEFINITION. The statements for the provers. Each names the rule of spec/ it formalises or rests on. A statement about
the accept step, a round step or a run speaks of the ports through `s.ports` (this step's sample) and `s.inputs` (this
step's and the later ones); `{ s with inputs := s.inputs.tail }` is the state with the next sample in force (log 1). -/

open Sys2Proof Sys2Proof.Machine

/-! ### Reset and the step relation -/

/-- 10_state.md R36: the state after reset. -/
def Obligations.ResetStateIsAllZero : Prop :=
  State.reset.key = 0 ∧ State.reset.klen = 0 ∧ State.reset.dout = 0 ∧ State.reset.olen = 0 ∧ State.reset.st = 0 ∧
  State.reset.busy = false ∧ State.reset.done = false ∧ State.reset.errk = 0 ∧
  State.reset.exp = 0 ∧ State.reset.got = 0 ∧ State.reset.ecmd = 0 ∧ State.reset.ph = .idle ∧ State.reset.rnd = 0 ∧
  State.reset.dirq = .forward ∧ State.reset.l = 0 ∧ State.reset.r = 0

/-- 70_reset_and_hazards.md R250: in any step with `rst = 1`, whatever the phase and the other ports. -/
def Obligations.ResetStepClearsEveryRegister : Prop :=
  ∀ s : State, s.ports.rst = true → step s = .next
    { key := 0#64, klen := 0#7, dout := 0#64, olen := 0#7, st := 0#4, exp := 0#7, got := 0#7, ecmd := 0#16
      ph := .idle, rnd := 0#5, dirq := .forward, l := 0#32, r := 0#32, inputs := s.inputs.tail }

/-- 60_exceptions.md R227, 10_state.md R30 case b. -/
def Obligations.IdleStepKeepsEverything : Prop :=
  ∀ s : State, s.ports.rst = false → s.ph = .idle → s.ports.cmdValid = false →
    step s = .next { s with inputs := s.inputs.tail }

/-- 10_state.md R30 case c, 30_encoding.md R74: the accept step is the decoded command's meaning, and then the next port
sample is in force. -/
def Obligations.AcceptStepRunsTheDecodedCommand : Prop :=
  ∀ (s : State) (i : Instr), Accepts s → decode s.ports.cmd = .ok i →
    ∃ t, exec i s = .next t ∧ step s = .next { t with inputs := s.inputs.tail }

/-- 60_exceptions.md R213, 30_encoding.md R73: an illegal word in its accept step. -/
def Obligations.IllegalWordRaisesIllegalCommand : Prop :=
  ∀ s : State, Accepts s → IllegalWord s.ports.cmd →
    ∃ t, step s = .next t ∧ Faulted { s with inputs := s.inputs.tail } t 3#2 0#7 0#7 s.ports.cmd

/-- 00_scope.md R16: a command's meaning and a step are total; nothing ends in an undefined state. -/
def Obligations.EveryCommandAndStepAnswersNext : Prop :=
  (∀ (i : Instr) (s : State), ∃ t, exec i s = .next t) ∧ ∀ s : State, ∃ t, step s = .next t

/-- 10_state.md R30 case d, 70_reset_and_hazards.md R254: while the engine runs, only `rst` matters of the ports. -/
def Obligations.BusyEngineIgnoresThePorts : Prop :=
  ∀ (s : State) (p p' : Ports) (q : List Ports), s.ph = .run → p.rst = false → p'.rst = false →
    step { s with inputs := p :: q } = step { s with inputs := p' :: q }

/-- 10_state.md R28: the outputs are functions of the status; in a state that meets R37's invariants `cmd_ready` is 1
exactly in `IDLE`. -/
def Obligations.OutputsMirrorTheStatus : Prop :=
  ∀ s : State, s.cmdReady = !s.st.getLsbD 3 ∧ s.done = s.st.getLsbD 2 ∧
    s.err = (s.st.getLsbD 2 && decide (s.st.extractLsb' 0 2 ≠ 0#2)) ∧ (StateInv s → (s.cmdReady = true ↔ s.ph = .idle))

/-! ### Encoding -/

/-- 30_encoding.md R73: decoding refuses exactly the illegal words. -/
def Obligations.DecodingRefusesExactlyTheIllegalWords : Prop :=
  ∀ w : Word, (∃ e, decode w = .error e) ↔ IllegalWord w

/-- 30_encoding.md R74: the match and mask of each command and the value conditions on top of them. -/
def Obligations.MatchAndMaskSelectTheCommand : Prop :=
  ∀ w : Word,
    (decode w = .ok .ldk ↔ w &&& 0xFFFF#16 = 0x1000#16) ∧
    (decode w = .ok .enc ↔ w &&& 0xFFFF#16 = 0x2000#16) ∧
    (decode w = .ok .dec ↔ w &&& 0xFFFF#16 = 0x3000#16) ∧
    ((∃ d r, decode w = .ok (.drk d r)) ↔ w &&& 0xFF40#16 = 0x4000#16) ∧
    ((∃ d r, decode w = .ok (.frd d r)) ↔ w &&& 0xFF40#16 = 0x5000#16) ∧
    ((∃ t, decode w = .ok (.shf t)) ↔
      w &&& 0xF0FF#16 = 0x6000#16 ∧ w.toNat / 256 % 16 ≠ 6 ∧ w.toNat / 256 % 16 ≠ 7) ∧
    ((∃ t k, decode w = .ok (.trd t k)) ↔
      w &&& 0xF0C0#16 = 0x7000#16 ∧ w.toNat / 256 % 16 ≠ 6 ∧ w.toNat / 256 % 16 ≠ 7 ∧
        w.toNat % 64 < entriesOfCode (w.toNat / 256 % 16))

/-- 30_encoding.md R72, R75, R78: the words of `DRK`, `FRD`, `SHF` and `TRD` for every operand, as numbers. -/
def Obligations.WordsCarryTheirOperands : Prop :=
  (∀ (d : Direction) (r : Idx),
    decode (BitVec.ofNat 16 (0x4000 + dirValue d + r.toNat)) = .ok (.drk d r) ∧
    decode (BitVec.ofNat 16 (0x5000 + dirValue d + r.toNat)) = .ok (.frd d r)) ∧
  ∀ x ∈ [(Table.pos .ip, 0), (.pos .ipInverse, 1), (.pos .e, 2), (.pos .p, 3), (.pos .pc1, 4), (.pos .pc2, 5),
      (.box .s1, 8), (.box .s2, 9), (.box .s3, 10), (.box .s4, 11), (.box .s5, 12), (.box .s6, 13), (.box .s7, 14),
      (.box .s8, 15)],
    decode (BitVec.ofNat 16 (0x6000 + 0x100 * x.2)) = .ok (.shf x.1) ∧
    ∀ k : Idx, k.toNat < entriesOfCode x.2 → decode (BitVec.ofNat 16 (0x7000 + 0x100 * x.2 + k.toNat)) = .ok (.trd x.1 k)

/-- Every well-formed command is the decoding of its word: no bit of an operand is dropped (30_encoding.md R74). -/
def Obligations.DecodeOfEncodeIsTheCommand : Prop := ∀ i : Instr, i.wf = true → decode (encode i) = .ok i

/-- Every legal word is the word of the command it decodes to, which is well-formed (30_encoding.md R74). -/
def Obligations.EncodeOfDecodeIsTheWord : Prop := ∀ (w : Word) (i : Instr), decode w = .ok i → encode i = w ∧ i.wf = true

/-- A few words written out from 30_encoding.md R70 to R72, one of each family (95_test_vectors.md section 9). -/
def Obligations.SampleWordsDecode : Prop :=
  decode 0b0001000000000000#16 = .ok .ldk ∧ decode 0b0010000000000000#16 = .ok .enc ∧
  decode 0b0011000000000000#16 = .ok .dec ∧ decode 0b0100000010010000#16 = .ok (.drk .reverse 16#6) ∧
  decode 0b0101000000010100#16 = .ok (.frd .forward 20#6) ∧ decode 0b0110010100000000#16 = .ok .shfPc2 ∧
  decode 0b0110111100000000#16 = .ok .shfS8 ∧ decode 0b0111001000101111#16 = .ok (.trdE 47#6) ∧
  decode 0b0111111100111111#16 = .ok (.trdS8 63#6)

/-! ### The tables -/

/-- 41_tables.md R145, with the closed forms of R127 and R129. -/
def Obligations.TablesHaveTheirStructure : Prop :=
  List.Perm (prom .ip) (List.range' 1 64) ∧ List.Perm (prom .ipInverse) (List.range' 1 64) ∧
  (∀ i < 64, (prom .ipInverse).getD ((prom .ip).getD i 0 - 1) 0 = i + 1) ∧
  (∀ a < 8, ∀ b < 8, (prom .ip).getD (8 * a + b) 0 = 58 + 2 * (a % 4) - a / 4 - 8 * b) ∧
  List.Perm (prom .p) (List.range' 1 32) ∧
  (prom .e).length = 48 ∧ (∀ a < 8, ∀ b < 6, (prom .e).getD (6 * a + b) 0 = (4 * a + b + 31) % 32 + 1) ∧
  (∀ p ∈ List.range' 1 32, (prom .e).count p = if p % 4 = 0 ∨ p % 4 = 1 then 2 else 1) ∧
  (prom .pc1).length = 56 ∧ (prom .pc1).Nodup ∧ (∀ p ∈ prom .pc1, 1 ≤ p ∧ p ≤ 63 ∧ p % 8 ≠ 0) ∧ 63 ∈ prom .pc1 ∧
  (prom .pc2).length = 48 ∧ (prom .pc2).Nodup ∧ (∀ p ∈ (prom .pc2).take 24, 1 ≤ p ∧ p ≤ 28) ∧
  (∀ p ∈ (prom .pc2).drop 24, 29 ≤ p ∧ p ≤ 56) ∧ 56 ∈ prom .pc2 ∧
  (∀ b ∈ [SBox.s1, .s2, .s3, .s4, .s5, .s6, .s7, .s8], (srom b).length = 64 ∧ (srom b).sum = 480 ∧
    ∀ row < 4, List.Perm (((srom b).drop (16 * row)).take 16) (List.range 16)) ∧
  (prom .ip).sum = 2080 ∧ (prom .ipInverse).sum = 2080 ∧ (prom .e).sum = 792 ∧ (prom .p).sum = 528 ∧
  (prom .pc1).sum = 1792 ∧ (prom .pc2).sum = 1352

/-- 41_tables.md R120, R121: `SHF` of each position table, for every operand and declared length. -/
def Obligations.ShfAppliesAPositionTable : Prop :=
  ∀ s : State, ∀ x ∈ [(Instr.shfIp, PosTable.ip, 64, 64, 0x6000#16), (.shfIpInverse, .ipInverse, 64, 64, 0x6100#16),
      (.shfE, .e, 32, 48, 0x6200#16), (.shfP, .p, 32, 32, 0x6300#16), (.shfPc1, .pc1, 64, 56, 0x6400#16),
      (.shfPc2, .pc2, 56, 48, 0x6500#16)],
    let (i, tbl, req, out, w) := x
    ∃ t, exec i s = .next t ∧
      (s.ports.dlen.toNat < req → Faulted s t 1#2 (BitVec.ofNat 7 req) s.ports.dlen w) ∧
      (req ≤ s.ports.dlen.toNat → Completed s t out fun j => s.ports.din.getMsbD ((prom tbl).getD j 0 - 1))

/-- 41_tables.md R135, R136: `SHF` of each S-box; the input value is the top six bits of `DIN`. -/
def Obligations.ShfAppliesAnSBox : Prop :=
  ∀ s : State, ∀ x ∈ [(Instr.shfS1, SBox.s1, 0x6800#16), (.shfS2, .s2, 0x6900#16), (.shfS3, .s3, 0x6A00#16),
      (.shfS4, .s4, 0x6B00#16), (.shfS5, .s5, 0x6C00#16), (.shfS6, .s6, 0x6D00#16), (.shfS7, .s7, 0x6E00#16),
      (.shfS8, .s8, 0x6F00#16)],
    let (i, box, w) := x
    ∃ t, exec i s = .next t ∧
      (s.ports.dlen ≠ 6#7 → Faulted s t 1#2 6#7 s.ports.dlen w) ∧
      (s.ports.dlen = 6#7 → Completed s t 4 fun j => (sboxEntry box (s.ports.din.toNat / 2 ^ 58)).testBit (3 - j))

/-- 41_tables.md R125: `TRD` of each table, for every index inside it. -/
def Obligations.TrdReadsAnEntry : Prop :=
  ∀ (s : State) (k : Idx),
    (∀ x ∈ [(Instr.trdIp k, PosTable.ip, 64), (.trdIpInverse k, .ipInverse, 64), (.trdE k, .e, 48), (.trdP k, .p, 32),
        (.trdPc1 k, .pc1, 56), (.trdPc2 k, .pc2, 48)],
      k.toNat < x.2.2 → ∃ t, exec x.1 s = .next t ∧
        Completed s t 7 fun j => ((prom x.2.1).getD k.toNat 0).testBit (6 - j)) ∧
    (∀ x ∈ [(Instr.trdS1 k, SBox.s1), (.trdS2 k, .s2), (.trdS3 k, .s3), (.trdS4 k, .s4), (.trdS5 k, .s5), (.trdS6 k, .s6),
        (.trdS7 k, .s7), (.trdS8 k, .s8)],
      ∃ t, exec x.1 s = .next t ∧ Completed s t 4 fun j => ((srom x.2).getD k.toNat 0).testBit (3 - j))

/-- The model's choice (log 10) for `TRD` terms that no word spells: the fault of the word with that index
(30_encoding.md R73). -/
def Obligations.TrdPastTheTableIsIllegal : Prop :=
  ∀ (s : State) (k : Idx), ∀ x ∈ [(Instr.trdE k, 48, 0x7200), (.trdP k, 32, 0x7300), (.trdPc1 k, 56, 0x7400),
      (.trdPc2 k, 48, 0x7500)],
    x.2.1 ≤ k.toNat → ∃ t, exec x.1 s = .next t ∧ Faulted s t 3#2 0#7 0#7 (BitVec.ofNat 16 (x.2.2 + k.toNat))

/-- 41_tables.md R128: `IP_INVERSE` undoes `IP` and `IP` undoes `IP_INVERSE`, through the commands. -/
def Obligations.IpInverseUndoesIp : Prop :=
  ∀ s s' t : State, 64 ≤ s.ports.dlen.toNat → 64 ≤ s'.ports.dlen.toNat → s'.ports.din = t.dout →
    (exec .shfIp s = .next t → ∃ t', exec .shfIpInverse s' = .next t' ∧ t'.dout = s.ports.din ∧ t'.olen = 64#7) ∧
    (exec .shfIpInverse s = .next t → ∃ t', exec .shfIp s' = .next t' ∧ t'.dout = s.ports.din ∧ t'.olen = 64#7)

/-- The laws of the bit operations (40_bitsequence.md R110). That the last one holds of every `m` and `n` is THE MODEL'S
CHOICE (log 11): 41_tables.md R120 and R121 give `perm` a value only where `nReq t ≤ m`, with `n = nOut t`, and the model
reads a position past the end as 0. At length 0, where R103 gives `rotl` no value, its laws hold of any value (log 7). -/
def Obligations.BitOperationsObeyTheirLaws : Prop :=
  (∀ (n : Nat) (a b c : BitVec n), a ^^^ b = b ^^^ a ∧ (a ^^^ b) ^^^ c = a ^^^ (b ^^^ c) ∧ a ^^^ a = 0#n ∧ a ^^^ 0#n = a ∧
    (a ^^^ b) ^^^ b = a) ∧
  (∀ (n : Nat) (s : BitVec n) (j k : Nat), rotl (rotl s j) k = rotl s (j + k) ∧ rotl s n = s ∧ rotl s 0 = s) ∧
  (∀ (m n : Nat) (a : BitVec m) (b : BitVec n), slice (a ++ b) 0 m = a ∧ slice (a ++ b) m n = b) ∧
  ∀ (m n : Nat) (t : PosTable) (a b : BitVec m), perm n t (a ^^^ b) = perm n t a ^^^ perm n t b

/-! ### The key schedule -/

/-- 42_key_schedule.md R161: `LDK`, word 0x1000, whatever `DLEN` is. -/
def Obligations.LdkLoadsTheKey : Prop :=
  decode 0x1000#16 = .ok .ldk ∧ ∀ s : State, ∃ t, exec .ldk s = .next t ∧
    t = { s with
      key := t.key, klen := s.ports.dlen, dout := 0#64, olen := 0#7, st := 0b0100#4, exp := 0#7, got := 0#7, ecmd := 0#16
      ph := .idle, rnd := 0#5, dirq := .forward, l := 0#32, r := 0#32 } ∧
    ∀ i < 64, t.key.getMsbD i = (decide (i < min s.ports.dlen.toNat 64) && s.ports.din.getMsbD i)

/-- 42_key_schedule.md R162, its round-16 rotation among it, and the table of R163. -/
def Obligations.RotationAmountsAreTheTable : Prop :=
  shifts = [1, 1, 2, 2, 2, 2, 2, 2, 1, 2, 2, 2, 2, 2, 2, 1] ∧
  (List.range' 1 16).map cum = [1, 2, 4, 6, 8, 10, 12, 14, 15, 17, 19, 21, 23, 25, 27, 28] ∧
  (List.range' 1 16).map (rot · .forward) = [1, 2, 4, 6, 8, 10, 12, 14, 15, 17, 19, 21, 23, 25, 27, 28] ∧
  (List.range' 1 16).map (rot · .reverse) = [28, 27, 25, 23, 21, 19, 17, 15, 14, 12, 10, 8, 6, 4, 2, 1] ∧
  ∀ x : BitVec 28, rotl x (cum 16) = x

/-- 42_key_schedule.md R163, the equivalent reading: `Reverse` round `r` rotates the unrotated halves right by
`SHIFTS[16] + ... + SHIFTS[18 - r]`. -/
def Obligations.ReverseRotationIsARightRotation : Prop :=
  ∀ (x : BitVec 28) (r : Nat), 1 ≤ r → r ≤ 16 → rotl x (rot r .reverse) = x.rotateRight (shifts.drop (17 - r)).sum

/-- 42_key_schedule.md R165: `DRK`, its result bit by bit and its faults in their order. -/
def Obligations.DrkDeliversTheRoundKey : Prop :=
  ∀ (s : State) (d : Direction) (r : Idx), ∃ t, exec (.drk d r) s = .next t ∧
    (s.klen.toNat < 64 → Faulted s t 1#2 64#7 s.klen (BitVec.ofNat 16 (0x4000 + dirValue d + r.toNat))) ∧
    (64 ≤ s.klen.toNat → r.toNat = 0 ∨ 17 ≤ r.toNat →
      Faulted s t 2#2 0#7 (r.setWidth 7) (BitVec.ofNat 16 (0x4000 + dirValue d + r.toNat))) ∧
    (64 ≤ s.klen.toNat → 1 ≤ r.toNat → r.toNat ≤ 16 → Completed s t 48 (roundKeyBit s.key (rot r.toNat d)))

/-- 42_key_schedule.md R166: the schedule is symmetric. -/
def Obligations.KeyScheduleIsSymmetric : Prop :=
  ∀ (s : State) (r : Idx), 64 ≤ s.klen.toNat → 1 ≤ r.toNat → r.toNat ≤ 16 →
    ∃ t, exec (.drk .forward r) s = .next t ∧ exec (.drk .reverse (17#6 - r)) s = .next t

/-- 42_key_schedule.md R168: the key positions 8, 16, ..., 64 influence no command but `LDK`. -/
def Obligations.ParityBitsInfluenceNothing : Prop :=
  ∀ (s t : State) (i : Instr) (key' : Bus), i ≠ .ldk →
    (∀ p < 64, (p + 1) % 8 ≠ 0 → key'.getMsbD p = s.key.getMsbD p) →
    execCommand i s = .next t → execCommand i { s with key := key' } = .next { t with key := key' }

/-- 92_eei_decisions.md D31: a key of any declared length from 64 to 127 is the same key. -/
def Obligations.DeclaredKeyLengthBeyond64InfluencesNothing : Prop :=
  ∀ (s t : State) (i : Instr) (n : Len), i ≠ .ldk → 64 ≤ s.klen.toNat → 64 ≤ n.toNat →
    execCommand i s = .next t → execCommand i { s with klen := n } = .next { t with klen := n }

/-- 10_state.md R23, 60_exceptions.md R214: only a reset step and the accept step of `LDK` change the key. -/
def Obligations.OnlyLdkAndResetChangeTheKey : Prop :=
  ∀ s t : State, step s = .next t → t.key ≠ s.key ∨ t.klen ≠ s.klen →
    s.ports.rst = true ∨ (Accepts s ∧ s.ports.cmd = 0x1000#16)

/-- 20_memory.md R53, 10_state.md R21: what `LDK`, `SHF` and `TRD` show the host does not depend on the key held. -/
def Obligations.TableCommandsShowNothingOfTheKey : Prop :=
  ∀ (s t : State) (i : Instr) (key' : Bus) (klen' : Len),
    (i = .ldk ∨ (∃ tbl, i = .shf tbl) ∨ ∃ tbl k, i = .trd tbl k) → exec i s = .next t →
    ∃ t', exec i { s with key := key', klen := klen' } = .next t' ∧ t'.hostView = t.hostView

/-! ### The round and the sequencer -/

/-- 43_feistel.md R180: the round function bit by bit. -/
def Obligations.RoundFunctionByBits : Prop :=
  ∀ (right : BitVec 32) (k : BitVec 48), ∀ j < 32, (feistel right k).getMsbD j = feistelBit right k j

/-- 43_feistel.md R186: `FRD`, its result and its faults in their order. -/
def Obligations.FrdRunsOneRound : Prop :=
  ∀ (s : State) (d : Direction) (r : Idx), ∃ t, exec (.frd d r) s = .next t ∧
    (s.ports.dlen ≠ 64#7 → Faulted s t 1#2 64#7 s.ports.dlen (BitVec.ofNat 16 (0x5000 + dirValue d + r.toNat))) ∧
    (s.ports.dlen = 64#7 → s.klen.toNat < 64 →
      Faulted s t 1#2 64#7 s.klen (BitVec.ofNat 16 (0x5000 + dirValue d + r.toNat))) ∧
    (s.ports.dlen = 64#7 → 64 ≤ s.klen.toNat → r.toNat = 0 ∨ 17 ≤ r.toNat →
      Faulted s t 2#2 0#7 (r.setWidth 7) (BitVec.ofNat 16 (0x5000 + dirValue d + r.toNat))) ∧
    (s.ports.dlen = 64#7 → 64 ≤ s.klen.toNat → 1 ≤ r.toNat → r.toNat ≤ 16 →
      ∀ k, IsRoundKey s.key r.toNat d k →
        let left := s.ports.din.extractLsb' 32 32
        let right := s.ports.din.extractLsb' 0 32
        Completed s t 64 fun i => (right ++ (left ^^^ feistel right k)).getMsbD i)

/-- 43_feistel.md R184, R186: one round undoes itself once the halves are exchanged. -/
def Obligations.OneRoundUndoesItself : Prop :=
  ∀ (s s' t : State) (d : Direction) (r : Idx), s.ports.dlen = 64#7 → 64 ≤ s.klen.toNat → 1 ≤ r.toNat → r.toNat ≤ 16 →
    exec (.frd d r) s = .next t → s'.key = s.key → s'.klen = s.klen → s'.ports.dlen = 64#7 →
    s'.ports.din = swapHalves t.dout →
    ∃ t', exec (.frd d r) s' = .next t' ∧ t'.dout = swapHalves s.ports.din ∧ t'.olen = 64#7

/-- The accept step of `ENC` and `DEC`. That `ERRK` keeps its value in it is THE MODEL'S CHOICE (log 2): 43_feistel.md R190
says so, the table of 10_state.md R25, R33 and Q15 have `ERRK` = 0 while `BUSY` = 1. The rest is R190. -/
def Obligations.EncAndDecStartARun : Prop :=
  ∀ s : State, ∀ x ∈ [(Instr.enc, Direction.forward, 0x2000#16), (.dec, .reverse, 0x3000#16)],
    ∃ t, exec x.1 s = .next t ∧
      (s.ports.dlen ≠ 64#7 → Faulted s t 1#2 64#7 s.ports.dlen x.2.2) ∧
      (s.ports.dlen = 64#7 →
        t = { s with l := t.l, r := t.r, dirq := x.2.1, rnd := 1#5, ph := .run, st := 0b10#2 ++ s.st.extractLsb' 0 2 } ∧
        ∀ i < 32, t.l.getMsbD i = s.ports.din.getMsbD ((prom .ip).getD i 0 - 1) ∧
          t.r.getMsbD i = s.ports.din.getMsbD ((prom .ip).getD (32 + i) 0 - 1))

/-- The round step of a run, in every round (43_feistel.md R191). The fault of a short key in rounds 2 to 16, which no run
reaches, is THE MODEL'S CHOICE (log 3): R191 says that a fault occurs only when `RND` = 1. The last clause only reads
`KeyChecked`, which every step keeps: with it, the fault of a short key is left to round 1. -/
def Obligations.RoundStepRunsOneRound : Prop :=
  ∀ s : State, s.ports.rst = false → s.ph = .run → 1 ≤ s.rnd.toNat → s.rnd.toNat ≤ 16 → ∃ t, step s = .next t ∧
    (s.klen.toNat < 64 → Faulted { s with inputs := s.inputs.tail } t 1#2 64#7 s.klen
      (if s.dirq = .forward then 0x2000#16 else 0x3000#16)) ∧
    (64 ≤ s.klen.toNat → ∀ k, IsRoundKey s.key s.rnd.toNat s.dirq k →
      (s.rnd.toNat < 16 →
        t = { s with l := s.r, r := s.l ^^^ feistel s.r k, rnd := s.rnd + 1#5, inputs := s.inputs.tail }) ∧
      (s.rnd.toNat = 16 → Completed { s with inputs := s.inputs.tail } t 64 fun i =>
        ((s.l ^^^ feistel s.r k) ++ s.r).getMsbD ((prom .ipInverse).getD i 0 - 1))) ∧
    (KeyChecked s → s.klen.toNat < 64 → s.rnd.toNat = 1)

/-- 43_feistel.md R193, 10_state.md R29: the fixed walk of the sequencer, and its one departure. -/
def Obligations.SequencerWalksItsRounds : Prop :=
  ∀ s t : State, StateInv s → KeyChecked s → s.ports.rst = false → s.ph = .run → step s = .next t →
    (s.rnd.toNat < 16 ∧ 64 ≤ s.klen.toNat ∧ t.ph = .run ∧ t.rnd.toNat = s.rnd.toNat + 1 ∧ t.dirq = s.dirq) ∨
    (s.rnd.toNat = 16 ∧ 64 ≤ s.klen.toNat ∧ t.ph = .idle ∧ t.rnd = 0#5 ∧ t.st = 0b0100#4) ∨
    (s.rnd.toNat = 1 ∧ s.klen.toNat < 64 ∧ t.ph = .idle ∧ t.rnd = 0#5 ∧ t.st = 0b0101#4)

/-- 20_memory.md R61, 70_reset_and_hazards.md R255: while the engine runs, the result and the fault record of the previous
command stay (`ERRK` among them, log 2), and so does the key. -/
def Obligations.RunningKeepsThePreviousResult : Prop :=
  ∀ s t : State, step s = .next t → t.ph = .run →
    t.dout = s.dout ∧ t.olen = s.olen ∧ t.errk = s.errk ∧ t.exp = s.exp ∧ t.got = s.got ∧ t.ecmd = s.ecmd ∧
      t.key = s.key ∧ t.klen = s.klen

/-- 60_exceptions.md R214: what holds after a command that completed with a fault. -/
def Obligations.FaultKeepsTheKeyAndDeliversNothing : Prop :=
  ∀ (i : Instr) (s t : State), exec i s = .next t → t.busy = false → t.errk ≠ 0#2 →
    t.key = s.key ∧ t.klen = s.klen ∧ t.dout = 0#64 ∧ t.olen = 0#7 ∧ t.done = true ∧ t.ph = .idle ∧ t.rnd = 0#5 ∧
      t.dirq = .forward ∧ t.l = 0#32 ∧ t.r = 0#32 ∧ t.ecmd = encode i

/-! ### Whole commands -/

/-- 43_feistel.md R192, 10_state.md R31: the steps of a command end in the state the command level gives, whatever the host
drives besides `rst` meanwhile. -/
def Obligations.StepsReachTheCommandLevel : Prop :=
  ∀ (s u : State) (i : Instr), Accepts s → decode s.ports.cmd = .ok i → execCommand i s = .next u →
    NoReset (latency s.ports.cmd s.ports.dlen s.klen) s →
    Host.Core.run Sys2Proof.core (latency s.ports.cmd s.ports.dlen s.klen) s =
      .next { u with inputs := s.inputs.drop (latency s.ports.cmd s.ports.dlen s.klen) }

/-- 43_feistel.md R187 to R189: seventeen steps of `ENC` and `DEC` give `IP_INVERSE(R16 ++ L16)` for the halves
`L(n+1) = R(n)`, `R(n+1) = L(n) ^ f(R(n), K(n+1))` that start from `IP` of the block. -/
def Obligations.EncAndDecAreSixteenRounds : Prop :=
  ∀ (s : State) (d : Direction) (k : Nat → BitVec 48) (lh rh : Nat → BitVec 32), Accepts s →
    s.ports.cmd = (if d = .forward then 0x2000#16 else 0x3000#16) → s.ports.dlen = 64#7 → 64 ≤ s.klen.toNat →
    NoReset 17 s →
    (∀ n, 1 ≤ n → n ≤ 16 → IsRoundKey s.key n d (k n)) →
    (∀ i < 32, (lh 0).getMsbD i = s.ports.din.getMsbD ((prom .ip).getD i 0 - 1) ∧
      (rh 0).getMsbD i = s.ports.din.getMsbD ((prom .ip).getD (32 + i) 0 - 1)) →
    (∀ n < 16, lh (n + 1) = rh n ∧ rh (n + 1) = lh n ^^^ feistel (rh n) (k (n + 1))) →
    ∃ t, Host.Core.run Sys2Proof.core 17 s = .next t ∧
      Completed { s with inputs := s.inputs.drop 17 } t 64 fun i =>
        (rh 16 ++ lh 16).getMsbD ((prom .ipInverse).getD i 0 - 1)

/-- 43_feistel.md R194: `DEC` recovers what `ENC` was given, and `ENC` what `DEC` was given, under the same key, whatever
happened in between. -/
def Obligations.DecUndoesEncAndEncUndoesDec : Prop :=
  ∀ (s s' t : State) (d : Direction), Accepts s → Accepts s' →
    s.ports.cmd = (if d = .forward then 0x2000#16 else 0x3000#16) →
    s'.ports.cmd = (if d = .forward then 0x3000#16 else 0x2000#16) →
    s.ports.dlen = 64#7 → s'.ports.dlen = 64#7 → 64 ≤ s.klen.toNat → s'.key = s.key → s'.klen = s.klen →
    NoReset 17 s → NoReset 17 s' → Host.Core.run Sys2Proof.core 17 s = .next t → s'.ports.din = t.dout →
    ∃ t', Host.Core.run Sys2Proof.core 17 s' = .next t' ∧ t'.dout = s.ports.din ∧ t'.olen = 64#7 ∧ t'.st = 0b0100#4

/-- 95_test_vectors.md Q11, 43_feistel.md R186: sixteen `FRD` from `IP` of the block, the halves exchanged by the host, then
`IP_INVERSE`, is what the whole command gives. -/
def Obligations.SixteenFrdAreTheWholeCommand : Prop :=
  ∀ (s : State) (d : Direction) (x : Nat → Bus), s.ports.dlen = 64#7 → 64 ≤ s.klen.toNat →
    (∀ i < 64, (x 0).getMsbD i = s.ports.din.getMsbD ((prom .ip).getD i 0 - 1)) →
    (∀ n < 16, ∀ u : State, u.key = s.key → u.klen = s.klen → u.ports.din = x n → u.ports.dlen = 64#7 →
      ∃ t, exec (.frd d (BitVec.ofNat 6 (n + 1))) u = .next t ∧ t.dout = x (n + 1)) →
    ∃ t, execCommand (if d = .forward then .enc else .dec) s = .next t ∧
      Completed s t 64 fun i => (swapHalves (x 16)).getMsbD ((prom .ipInverse).getD i 0 - 1)

/-- 95_test_vectors.md Q12: complementing the block and the key complements the result. -/
def Obligations.ComplementationProperty : Prop :=
  ∀ (s s' t : State), Accepts s → Accepts s' → s.ports.cmd = 0x2000#16 ∨ s.ports.cmd = 0x3000#16 →
    s'.ports.cmd = s.ports.cmd → s.ports.dlen = 64#7 → s'.ports.dlen = 64#7 → 64 ≤ s.klen.toNat → 64 ≤ s'.klen.toNat →
    s'.key = ~~~s.key → s'.ports.din = ~~~s.ports.din → NoReset 17 s → NoReset 17 s' →
    Host.Core.run Sys2Proof.core 17 s = .next t →
    ∃ t', Host.Core.run Sys2Proof.core 17 s' = .next t' ∧ t'.dout = ~~~t.dout ∧ t'.st = 0b0100#4

/-- 70_reset_and_hazards.md R257, R258, R259: the number of steps of every command, legal or not, from the word, `DLEN` and
`KLEN` alone; `BUSY` is 1 in between and `DONE` is 1 exactly at the end. -/
def Obligations.EveryCommandCompletesInItsSteps : Prop :=
  ∀ (s : State) (n : Nat), Accepts s →
    n = (if s.ports.cmd = 0x2000#16 ∨ s.ports.cmd = 0x3000#16 then
          if s.ports.dlen ≠ 64#7 then 1 else if s.klen.toNat < 64 then 2 else 17
        else 1) →
    NoReset n s →
    (∀ k, 1 ≤ k → k < n → ∃ t, Host.Core.run Sys2Proof.core k s = .next t ∧ t.busy = true ∧ t.done = false ∧ t.ph = .run) ∧
    ∃ t, Host.Core.run Sys2Proof.core n s = .next t ∧ t.busy = false ∧ t.done = true ∧ t.ph = .idle

/-- 43_feistel.md R195, 20_memory.md R62, 95_test_vectors.md Q5: the state a whole command leaves depends only on the word,
the operand and the key; no earlier result, status, fault record or later port value has any influence. -/
def Obligations.OutcomeDependsOnWordOperandAndKeyOnly : Prop :=
  ∀ (s s' : State) (n : Nat), Accepts s → Accepts s' → s'.ports.cmd = s.ports.cmd → s'.ports.din = s.ports.din →
    s'.ports.dlen = s.ports.dlen → s'.key = s.key → s'.klen = s.klen →
    n = latency s.ports.cmd s.ports.dlen s.klen → NoReset n s → NoReset n s' →
    ∃ t t', Host.Core.run Sys2Proof.core n s = .next t ∧ Host.Core.run Sys2Proof.core n s' = .next t' ∧ SameMachine t t'

/-! ### Invariants -/

/-- 10_state.md R37: every step keeps the invariants, from every state that meets them; so they hold of every state reached
from reset, whatever the host drives. `ECMD = 0` does not imply `ERRK = 0`. -/
def Obligations.EveryStepKeepsTheInvariants : Prop :=
  (∀ s t : State, StateInv s → step s = .next t → StateInv t) ∧
  (∀ (q : List Ports) (n : Nat) (t : State),
    Host.Core.run Sys2Proof.core n { State.reset with inputs := q } = .next t → StateInv t) ∧
  ∃ s t : State, StateInv s ∧ step s = .next t ∧ StateInv t ∧ t.ecmd = 0#16 ∧ t.errk = 3#2

/-- 10_state.md R36, R37: the invariants hold after reset. -/
def Obligations.ResetMeetsTheInvariants : Prop :=
  ∀ q : List Ports, StateInv { State.reset with inputs := q } ∧ KeyChecked { State.reset with inputs := q } ∧
    LegalOlen { State.reset with inputs := q }

/-- 10_state.md R33: every step keeps `OLEN` among the values written. -/
def Obligations.EveryStepKeepsOlenLegal : Prop := ∀ s t : State, LegalOlen s → step s = .next t → LegalOlen t

/-- 43_feistel.md R187, R191: every step keeps that a run past round 1 has a usable key. -/
def Obligations.EveryStepKeepsTheKeyChecked : Prop := ∀ s t : State, KeyChecked s → step s = .next t → KeyChecked t
end

