-- ==== Sys2Proof/Laws/Bits.lean ====
section
/-! SUPPORT. What each datapath primitive does to a single bit, and the laws of 40_bitsequence.md R110 that follow. -/

namespace Sys2Proof.Machine

/-- Two sequences are equal when they have the same bit at every index (00_scope.md R10). -/
theorem eq_of_bits {n : Nat} {a b : BitVec n} (h : ∀ i < n, a.getMsbD i = b.getMsbD i) : a = b :=
  BitVec.eq_of_getMsbD_eq fun i hi => h i hi

/-- A sequence has no bit past its length. -/
theorem getMsbD_of_le {n i : Nat} (s : BitVec n) (h : n ≤ i) : s.getMsbD i = false := by
  simp [BitVec.getMsbD, Nat.not_lt.mpr h]

theorem getMsbD_concat {n : Nat} (x : BitVec n) (b : Bool) (i : Nat) :
    (x.concat b).getMsbD i = if i < n then x.getMsbD i else if i = n then b else false := by
  simp only [BitVec.getMsbD, BitVec.getLsbD_concat]
  by_cases h : i < n
  · have h1 : i < n + 1 := by omega
    have h2 : n - i ≠ 0 := by omega
    have h3 : n - i - 1 = n - 1 - i := by omega
    simp [h, h1, h2, h3]
  · by_cases h' : i = n
    · subst h'; simp
    · have : ¬ i < n + 1 := by omega
      simp [h, h', this]

@[simp] theorem getMsbD_bitsOf (f : Nat → Bool) (n i : Nat) : (bitsOf f n).getMsbD i = (decide (i < n) && f i) := by
  induction n with
  | zero => simp [bitsOf]
  | succ n ih =>
    rw [bitsOf, getMsbD_concat, ih]
    by_cases h : i < n
    · have : i < n + 1 := by omega
      simp [h, this]
    · by_cases h' : i = n
      · subst h'; simp
      · have : ¬ i < n + 1 := by omega
        simp [h, h', this]

/-- A sequence is built from its own bits. -/
theorem bitsOf_getMsbD {n : Nat} (s : BitVec n) : bitsOf (fun i => s.getMsbD i) n = s :=
  eq_of_bits fun i hi => by simp [hi]

@[simp] theorem getMsbD_seq (b : Bus) (n i : Nat) : (seq b n).getMsbD i = (decide (i < n) && b.getMsbD i) := by
  simp [seq]

@[simp] theorem getMsbD_bus {n : Nat} (s : BitVec n) (i : Nat) :
    (bus s).getMsbD i = (decide (i < 64) && s.getMsbD i) := by simp [bus]

@[simp] theorem getMsbD_slice {m : Nat} (s : BitVec m) (a n i : Nat) :
    (slice s a n).getMsbD i = (decide (i < n) && s.getMsbD (a + i)) := by simp [slice]

@[simp] theorem getMsbD_rotl {n : Nat} (s : BitVec n) (k i : Nat) :
    (rotl s k).getMsbD i = (decide (i < n) && s.getMsbD ((i + k % n) % n)) := by simp [rotl]

@[simp] theorem getMsbD_perm {m : Nat} (n : Nat) (t : PosTable) (s : BitVec m) (i : Nat) :
    (perm n t s).getMsbD i = (decide (i < n) && s.getMsbD ((prom t).getD i 0 - 1)) := by simp [perm]

/-- The bits of a joined sequence (40_bitsequence.md R102). -/
theorem getMsbD_join {m n : Nat} (a : BitVec m) (b : BitVec n) (i : Nat) :
    (a ++ b).getMsbD i = if i < m then a.getMsbD i else b.getMsbD (i - m) := by
  simp only [BitVec.getMsbD_append]
  by_cases h : i < m <;> simp [h]

/-- The bits of a block joined from two halves. -/
theorem getMsbD_join_halves (a b : BitVec 32) (i : Nat) :
    BitVec.getMsbD (w := 64) (a ++ b) i = if i < 32 then a.getMsbD i else b.getMsbD (i - 32) := getMsbD_join a b i

/-- The bits of the two rotated key halves joined. -/
theorem getMsbD_join_key (a b : BitVec 28) (i : Nat) :
    BitVec.getMsbD (w := 56) (a ++ b) i = if i < 28 then a.getMsbD i else b.getMsbD (i - 28) := getMsbD_join a b i

/-- A 64-bit sequence is its own bus value (00_scope.md R13). -/
@[simp] theorem bus_block (b : BitVec 64) : bus b = b := eq_of_bits fun i hi => by simp [hi]

@[simp] theorem seq_block (b : Bus) : seq b 64 = b := eq_of_bits fun i hi => by simp [hi]

/-- What a bus carries below the declared length is zero (10_state.md R27). -/
@[simp] theorem getMsbD_carried (b : Bus) (n : Len) (i : Nat) :
    (carried b n).getMsbD i = (decide (i < min n.toNat 64) && b.getMsbD i) := by
  simp only [carried, getMsbD_bus, getMsbD_seq]
  by_cases h : i < 64
  · simp [h]
  · have : ¬ i < min n.toNat 64 := by omega
    simp [h, this]

/-- A declared length of 64 or more leaves all 64 bits (10_state.md R23, R27). -/
theorem carried_of_le {n : Len} (b : Bus) (h : 64 ≤ n.toNat) : carried b n = b :=
  eq_of_bits fun i hi => by
    have : i < min n.toNat 64 := by omega
    simp [this]

theorem masterKey_of_le {klen : Len} (key : Bus) (h : 64 ≤ klen.toNat) : masterKey key klen = key := carried_of_le key h

/-- Carrying what is already carried changes nothing. -/
theorem carried_carried (b : Bus) (n : Len) : carried (carried b n) n = carried b n :=
  eq_of_bits fun i _ => by
    by_cases h : i < min n.toNat 64 <;> simp [h]

/-- Splitting a joined pair of halves gives them back (40_bitsequence.md R110). -/
theorem slice_join_left (a b : BitVec 32) : slice (a ++ b) 0 32 = a :=
  eq_of_bits fun i hi => by simp [getMsbD_join_halves, hi]

theorem slice_join_right (a b : BitVec 32) : slice (a ++ b) 32 32 = b :=
  eq_of_bits fun i hi => by simp [getMsbD_join_halves, hi]

/-- Joining the halves of a block gives it back (40_bitsequence.md R102). -/
theorem join_slices (t : BitVec 64) : slice t 0 32 ++ slice t 32 32 = t :=
  eq_of_bits fun i hi => by
    rw [getMsbD_join_halves]
    by_cases h : i < 32
    · simp [h]
    · have h1 : i - 32 < 32 := by omega
      have h2 : 32 + (i - 32) = i := by omega
      simp [h, h1, h2]

/-- A table applied to a table's output is one lookup through both, bit by bit. -/
theorem getMsbD_perm_perm {m : Nat} (a b : Nat) (t u : PosTable) (s : BitVec m) (i : Nat) (hi : i < a)
    (h : (prom t).getD i 0 - 1 < b) :
    (perm a t (perm b u s)).getMsbD i = s.getMsbD ((prom u).getD ((prom t).getD i 0 - 1) 0 - 1) := by
  simp only [getMsbD_perm, hi, h, decide_true, Bool.true_and]

/-- The first half of a block is its high 32 bits (00_scope.md R13). -/
theorem slice_high (b : Bus) : slice b 0 32 = b.extractLsb' 32 32 :=
  eq_of_bits fun i hi => by
    have h1 : i < 64 := by omega
    have h2 : 31 - i < 32 := by omega
    have h3 : 32 + (31 - i) = 63 - i := by omega
    rw [getMsbD_slice, Nat.zero_add]
    simp only [BitVec.getMsbD, BitVec.getLsbD_extractLsb', hi, h1, h2, h3, decide_true, Bool.true_and]

/-- The second half of a block is its low 32 bits (00_scope.md R13). -/
theorem slice_low (b : Bus) : slice b 32 32 = b.extractLsb' 0 32 :=
  eq_of_bits fun i hi => by
    have h1 : 32 + i < 64 := by omega
    have h2 : 31 - i < 32 := by omega
    have h3 : 0 + (31 - i) = 63 - (32 + i) := by omega
    rw [getMsbD_slice]
    simp only [BitVec.getMsbD, BitVec.getLsbD_extractLsb', hi, h1, h2, h3, decide_true, Bool.true_and]

/-- The first six bits of a bus as a number (00_scope.md R11, R13). -/
theorem toNat_seq_six (b : Bus) : (seq b 6).toNat = b.toNat / 2 ^ 58 := by
  have h : seq b 6 = b.extractLsb' 58 6 := eq_of_bits fun i hi => by
    have h1 : i < 64 := by omega
    have h2 : 5 - i < 6 := by omega
    have h3 : 58 + (5 - i) = 63 - i := by omega
    rw [getMsbD_seq]
    simp only [BitVec.getMsbD, BitVec.getLsbD_extractLsb', hi, h1, h2, h3, decide_true, Bool.true_and]
  rw [h, BitVec.extractLsb'_toNat, Nat.shiftRight_eq_div_pow]
  have := b.isLt
  omega

/-- The bits of a number in `n` bits, most significant first (40_bitsequence.md R106). -/
theorem getMsbD_ofNat {n j : Nat} (v : Nat) (h : j < n) : (BitVec.ofNat n v).getMsbD j = v.testBit (n - 1 - j) := by
  have h1 : n - 1 - j < n := by omega
  simp only [BitVec.getMsbD, BitVec.getLsbD_ofNat, h, h1, decide_true, Bool.true_and]

end Sys2Proof.Machine
end

