-- ==== Sys2Proof/Laws/Decode.lean ====
section
/-! SUPPORT. The fields of a word built from its fields, and what each part of the decoder answers (30_encoding.md R70 to
R74). -/

namespace Sys2Proof

@[simp] theorem opField_wordOf (op tbl : BitVec 4) (dir : BitVec 1) (idx : Idx) : opField (wordOf op tbl dir idx) = op := by
  apply BitVec.eq_of_getLsbD_eq
  intro i hi
  simp only [opField, wordOf, BitVec.getLsbD_extractLsb', BitVec.getLsbD_append]
  interval_cases i <;> simp

@[simp] theorem tblField_wordOf (op tbl : BitVec 4) (dir : BitVec 1) (idx : Idx) : tblField (wordOf op tbl dir idx) = tbl := by
  apply BitVec.eq_of_getLsbD_eq
  intro i hi
  simp only [tblField, wordOf, BitVec.getLsbD_extractLsb', BitVec.getLsbD_append]
  interval_cases i <;> simp

@[simp] theorem dirField_wordOf (op tbl : BitVec 4) (dir : BitVec 1) (idx : Idx) : dirField (wordOf op tbl dir idx) = dir := by
  apply BitVec.eq_of_getLsbD_eq
  intro i hi
  simp only [dirField, wordOf, BitVec.getLsbD_extractLsb', BitVec.getLsbD_append]
  interval_cases i
  simp

@[simp] theorem zField_wordOf (op tbl : BitVec 4) (dir : BitVec 1) (idx : Idx) : zField (wordOf op tbl dir idx) = 0#1 := by
  apply BitVec.eq_of_getLsbD_eq
  intro i hi
  simp only [zField, wordOf, BitVec.getLsbD_extractLsb', BitVec.getLsbD_append]
  interval_cases i
  simp

@[simp] theorem idxField_wordOf (op tbl : BitVec 4) (dir : BitVec 1) (idx : Idx) : idxField (wordOf op tbl dir idx) = idx := by
  apply BitVec.eq_of_getLsbD_eq
  intro i hi
  simp only [idxField, wordOf, BitVec.getLsbD_extractLsb', BitVec.getLsbD_append]
  interval_cases i <;> simp

/-- A word with `Z = 0` is the word of its fields (30_encoding.md R70). -/
theorem wordOf_fields {w : Word} (hz : zField w = 0#1) :
    wordOf (opField w) (tblField w) (dirField w) (idxField w) = w := by
  have h6 : w.getLsbD 6 = false := by
    have h := congrArg (fun x => BitVec.getLsbD x 0) hz
    simpa [zField, BitVec.getLsbD_extractLsb'] using h
  apply BitVec.eq_of_getLsbD_eq
  intro i hi
  simp only [opField, tblField, dirField, idxField, wordOf, BitVec.getLsbD_extractLsb', BitVec.getLsbD_append]
  interval_cases i <;> simp_all

/-- A word as a number from its fields (30_encoding.md R70, R78). -/
theorem toNat_wordOf (op tbl : BitVec 4) (dir : BitVec 1) (idx : Idx) :
    (wordOf op tbl dir idx).toNat = 4096 * op.toNat + 256 * tbl.toNat + 128 * dir.toNat + idx.toNat := by
  have h1 := dir.isLt
  have h2 := idx.isLt
  have h3 := tbl.isLt
  simp only [wordOf, BitVec.toNat_append]
  rw [← Nat.shiftLeft_add_eq_or_of_lt h3, ← Nat.shiftLeft_add_eq_or_of_lt h1,
    ← Nat.shiftLeft_add_eq_or_of_lt (0#1).isLt, ← Nat.shiftLeft_add_eq_or_of_lt h2]
  simp only [Nat.shiftLeft_eq, BitVec.toNat_ofNat]
  omega

/-- The fields of a word as numbers (30_encoding.md R70). -/
theorem toNat_fields (w : Word) :
    (opField w).toNat = w.toNat / 4096 ∧ (tblField w).toNat = w.toNat / 256 % 16 ∧ (dirField w).toNat = w.toNat / 128 % 2 ∧
      (zField w).toNat = w.toNat / 64 % 2 ∧ (idxField w).toNat = w.toNat % 64 := by
  have h := w.isLt
  simp only [opField, tblField, dirField, zField, idxField, BitVec.extractLsb'_toNat, Nat.shiftRight_eq_div_pow,
    Nat.reducePow, Nat.div_one, and_true]
  omega

@[simp] theorem dirOfBit_bitOfDir (d : Direction) : dirOfBit (bitOfDir d) = d := by cases d <;> rfl
@[simp] theorem bitOfDir_dirOfBit (b : BitVec 1) : bitOfDir (dirOfBit b) = b := by revert b; decide
@[simp] theorem tableOfCode_codeOfTable (t : Table) : tableOfCode (codeOfTable t) = some t := by
  rcases t with t | b
  · cases t <;> rfl
  · cases b <;> rfl

/-- A table is named by its own code only (30_encoding.md R72). -/
theorem codeOfTable_of_tableOfCode {c : BitVec 4} {t : Table} (h : tableOfCode c = some t) : codeOfTable t = c := by
  have h' : ∀ c : BitVec 4, (tableOfCode c).all fun t => codeOfTable t = c := by decide
  have := h' c
  rw [h] at this
  simpa using this

/-- Codes 6 and 7 name no table, every other code one (30_encoding.md R72). -/
theorem tableOfCode_eq_none {c : BitVec 4} : tableOfCode c = none ↔ c = 6#4 ∨ c = 7#4 := by revert c; decide

/-- `N_entries` by name and by code agree (30_encoding.md R73). -/
theorem entriesOf_eq_nOut (t : PosTable) : entriesOf (.pos t) = Machine.nOut t := by cases t <;> rfl

/-- A one-bit field is 0 or 1. -/
theorem bit_cases (b : BitVec 1) : b = 0#1 ∨ b = 1#1 := by revert b; decide

/-- What decoding does with a word given by its fields (30_encoding.md R74). -/
theorem decode_wordOf (op tbl : BitVec 4) (dir : BitVec 1) (idx : Idx) :
    decode (wordOf op tbl dir idx) =
      (if op = 1#4 then decodePlain (wordOf op tbl dir idx) .ldk
      else if op = 2#4 then decodePlain (wordOf op tbl dir idx) .enc
      else if op = 3#4 then decodePlain (wordOf op tbl dir idx) .dec
      else if op = 4#4 then decodeRound (wordOf op tbl dir idx) .drk
      else if op = 5#4 then decodeRound (wordOf op tbl dir idx) .frd
      else if op = 6#4 then decodeShf (wordOf op tbl dir idx)
      else if op = 7#4 then decodeTrd (wordOf op tbl dir idx)
      else .error .reservedOp) := by
  rw [decode]; simp

/-- The fields of a legal word, command by command (30_encoding.md R73, R74). -/
theorem decode_ok_cases {w : Word} {i : Instr} (h : decode w = .ok i) :
    zField w = 0#1 ∧
    ((opField w = 1#4 ∧ tblField w = 0#4 ∧ dirField w = 0#1 ∧ idxField w = 0#6 ∧ i = .ldk) ∨
     (opField w = 2#4 ∧ tblField w = 0#4 ∧ dirField w = 0#1 ∧ idxField w = 0#6 ∧ i = .enc) ∨
     (opField w = 3#4 ∧ tblField w = 0#4 ∧ dirField w = 0#1 ∧ idxField w = 0#6 ∧ i = .dec) ∨
     (opField w = 4#4 ∧ tblField w = 0#4 ∧ i = .drk (dirOfBit (dirField w)) (idxField w)) ∨
     (opField w = 5#4 ∧ tblField w = 0#4 ∧ i = .frd (dirOfBit (dirField w)) (idxField w)) ∨
     (opField w = 6#4 ∧ dirField w = 0#1 ∧ idxField w = 0#6 ∧
       ∃ t, tableOfCode (tblField w) = some t ∧ i = .shf t) ∨
     (opField w = 7#4 ∧ dirField w = 0#1 ∧
       ∃ t, tableOfCode (tblField w) = some t ∧ (idxField w).toNat < entriesOf t ∧ i = .trd t (idxField w))) := by
  have hz : zField w = 0#1 := by
    rcases bit_cases (zField w) with h0 | h1
    · exact h0
    · simp [decode, h1] at h
  refine ⟨hz, ?_⟩
  simp only [decode, hz, decodePlain, decodeRound, decodeShf, decodeTrd] at h
  split at h
  · contradiction
  split at h
  · split at h <;> simp_all
  split at h
  · split at h <;> simp_all
  split at h
  · split at h <;> simp_all
  split at h
  · split at h <;> simp_all
  split at h
  · split at h <;> simp_all
  split at h
  · split at h
    · simp at h
    · split at h <;> simp_all
  split at h
  · split at h
    · simp at h
    · split at h
      · split at h <;> simp_all
      · simp_all
  · simp at h

end Sys2Proof
end

