-- ==== Sys2Proof/Laws/State.lean ====
section
/-! SUPPORT. One lemma per field of `State` and update, so that no later proof unfolds a record update. -/

namespace Sys2Proof.Machine

/-! ### `finish` -/

@[simp] theorem finish_key (s : State) (res : Result) (k : BitVec 2) (e g : Len) (w : Word) : (finish s res k e g w).key = s.key := rfl
@[simp] theorem finish_klen (s : State) (res : Result) (k : BitVec 2) (e g : Len) (w : Word) : (finish s res k e g w).klen = s.klen := rfl
@[simp] theorem finish_dout (s : State) (res : Result) (k : BitVec 2) (e g : Len) (w : Word) : (finish s res k e g w).dout = res.bits := rfl
@[simp] theorem finish_olen (s : State) (res : Result) (k : BitVec 2) (e g : Len) (w : Word) : (finish s res k e g w).olen = res.len := rfl
@[simp] theorem finish_st (s : State) (res : Result) (k : BitVec 2) (e g : Len) (w : Word) : (finish s res k e g w).st = stOf false true k := rfl
@[simp] theorem finish_exp (s : State) (res : Result) (k : BitVec 2) (e g : Len) (w : Word) : (finish s res k e g w).exp = e := rfl
@[simp] theorem finish_got (s : State) (res : Result) (k : BitVec 2) (e g : Len) (w : Word) : (finish s res k e g w).got = g := rfl
@[simp] theorem finish_ecmd (s : State) (res : Result) (k : BitVec 2) (e g : Len) (w : Word) : (finish s res k e g w).ecmd = w := rfl
@[simp] theorem finish_ph (s : State) (res : Result) (k : BitVec 2) (e g : Len) (w : Word) : (finish s res k e g w).ph = .idle := rfl
@[simp] theorem finish_rnd (s : State) (res : Result) (k : BitVec 2) (e g : Len) (w : Word) : (finish s res k e g w).rnd = 0#5 := rfl
@[simp] theorem finish_dirq (s : State) (res : Result) (k : BitVec 2) (e g : Len) (w : Word) : (finish s res k e g w).dirq = .forward := rfl
@[simp] theorem finish_l (s : State) (res : Result) (k : BitVec 2) (e g : Len) (w : Word) : (finish s res k e g w).l = 0#32 := rfl
@[simp] theorem finish_r (s : State) (res : Result) (k : BitVec 2) (e g : Len) (w : Word) : (finish s res k e g w).r = 0#32 := rfl
@[simp] theorem finish_inputs (s : State) (res : Result) (k : BitVec 2) (e g : Len) (w : Word) : (finish s res k e g w).inputs = s.inputs := rfl

/-! ### `complete` -/

@[simp] theorem complete_key (s : State) (res : Result) : (complete s res).key = s.key := rfl
@[simp] theorem complete_klen (s : State) (res : Result) : (complete s res).klen = s.klen := rfl
@[simp] theorem complete_dout (s : State) (res : Result) : (complete s res).dout = res.bits := rfl
@[simp] theorem complete_olen (s : State) (res : Result) : (complete s res).olen = res.len := rfl
@[simp] theorem complete_st (s : State) (res : Result) : (complete s res).st = stOf false true 0#2 := rfl
@[simp] theorem complete_exp (s : State) (res : Result) : (complete s res).exp = 0#7 := rfl
@[simp] theorem complete_got (s : State) (res : Result) : (complete s res).got = 0#7 := rfl
@[simp] theorem complete_ecmd (s : State) (res : Result) : (complete s res).ecmd = 0#16 := rfl
@[simp] theorem complete_ph (s : State) (res : Result) : (complete s res).ph = .idle := rfl
@[simp] theorem complete_rnd (s : State) (res : Result) : (complete s res).rnd = 0#5 := rfl
@[simp] theorem complete_dirq (s : State) (res : Result) : (complete s res).dirq = .forward := rfl
@[simp] theorem complete_l (s : State) (res : Result) : (complete s res).l = 0#32 := rfl
@[simp] theorem complete_r (s : State) (res : Result) : (complete s res).r = 0#32 := rfl
@[simp] theorem complete_inputs (s : State) (res : Result) : (complete s res).inputs = s.inputs := rfl

/-! ### `raise` -/

@[simp] theorem raise_key (s : State) (k : Raise) (w : Word) : (raise s k w).key = s.key := rfl
@[simp] theorem raise_klen (s : State) (k : Raise) (w : Word) : (raise s k w).klen = s.klen := rfl
@[simp] theorem raise_dout (s : State) (k : Raise) (w : Word) : (raise s k w).dout = 0#64 := rfl
@[simp] theorem raise_olen (s : State) (k : Raise) (w : Word) : (raise s k w).olen = 0#7 := rfl
@[simp] theorem raise_st (s : State) (k : Raise) (w : Word) : (raise s k w).st = stOf false true k.errk := rfl
@[simp] theorem raise_exp (s : State) (k : Raise) (w : Word) : (raise s k w).exp = k.exp := rfl
@[simp] theorem raise_got (s : State) (k : Raise) (w : Word) : (raise s k w).got = k.got := rfl
@[simp] theorem raise_ecmd (s : State) (k : Raise) (w : Word) : (raise s k w).ecmd = w := rfl
@[simp] theorem raise_ph (s : State) (k : Raise) (w : Word) : (raise s k w).ph = .idle := rfl
@[simp] theorem raise_rnd (s : State) (k : Raise) (w : Word) : (raise s k w).rnd = 0#5 := rfl
@[simp] theorem raise_dirq (s : State) (k : Raise) (w : Word) : (raise s k w).dirq = .forward := rfl
@[simp] theorem raise_l (s : State) (k : Raise) (w : Word) : (raise s k w).l = 0#32 := rfl
@[simp] theorem raise_r (s : State) (k : Raise) (w : Word) : (raise s k w).r = 0#32 := rfl
@[simp] theorem raise_inputs (s : State) (k : Raise) (w : Word) : (raise s k w).inputs = s.inputs := rfl

/-! ### `startRun` -/

@[simp] theorem startRun_key (d : Direction) (s : State) : (startRun d s).key = s.key := rfl
@[simp] theorem startRun_klen (d : Direction) (s : State) : (startRun d s).klen = s.klen := rfl
@[simp] theorem startRun_dout (d : Direction) (s : State) : (startRun d s).dout = s.dout := rfl
@[simp] theorem startRun_olen (d : Direction) (s : State) : (startRun d s).olen = s.olen := rfl
@[simp] theorem startRun_st (d : Direction) (s : State) : (startRun d s).st = stOf true false s.errk := rfl
@[simp] theorem startRun_exp (d : Direction) (s : State) : (startRun d s).exp = s.exp := rfl
@[simp] theorem startRun_got (d : Direction) (s : State) : (startRun d s).got = s.got := rfl
@[simp] theorem startRun_ecmd (d : Direction) (s : State) : (startRun d s).ecmd = s.ecmd := rfl
@[simp] theorem startRun_ph (d : Direction) (s : State) : (startRun d s).ph = .run := rfl
@[simp] theorem startRun_rnd (d : Direction) (s : State) : (startRun d s).rnd = 1#5 := rfl
@[simp] theorem startRun_dirq (d : Direction) (s : State) : (startRun d s).dirq = d := rfl
@[simp] theorem startRun_l (d : Direction) (s : State) : (startRun d s).l = slice (perm 64 .ip s.operand) 0 32 := rfl
@[simp] theorem startRun_r (d : Direction) (s : State) : (startRun d s).r = slice (perm 64 .ip s.operand) 32 32 := rfl
@[simp] theorem startRun_inputs (d : Direction) (s : State) : (startRun d s).inputs = s.inputs := rfl

/-! ### `resetStep` -/

@[simp] theorem resetStep_key (s : State) : (resetStep s).key = 0#64 := rfl
@[simp] theorem resetStep_klen (s : State) : (resetStep s).klen = 0#7 := rfl
@[simp] theorem resetStep_dout (s : State) : (resetStep s).dout = 0#64 := rfl
@[simp] theorem resetStep_olen (s : State) : (resetStep s).olen = 0#7 := rfl
@[simp] theorem resetStep_st (s : State) : (resetStep s).st = 0#4 := rfl
@[simp] theorem resetStep_exp (s : State) : (resetStep s).exp = 0#7 := rfl
@[simp] theorem resetStep_got (s : State) : (resetStep s).got = 0#7 := rfl
@[simp] theorem resetStep_ecmd (s : State) : (resetStep s).ecmd = 0#16 := rfl
@[simp] theorem resetStep_ph (s : State) : (resetStep s).ph = .idle := rfl
@[simp] theorem resetStep_rnd (s : State) : (resetStep s).rnd = 0#5 := rfl
@[simp] theorem resetStep_dirq (s : State) : (resetStep s).dirq = .forward := rfl
@[simp] theorem resetStep_l (s : State) : (resetStep s).l = 0#32 := rfl
@[simp] theorem resetStep_r (s : State) : (resetStep s).r = 0#32 := rfl
@[simp] theorem resetStep_inputs (s : State) : (resetStep s).inputs = s.inputs := rfl

/-! ### `advance` -/

@[simp] theorem advance_key (s : State) : (advance s).key = s.key := rfl
@[simp] theorem advance_klen (s : State) : (advance s).klen = s.klen := rfl
@[simp] theorem advance_dout (s : State) : (advance s).dout = s.dout := rfl
@[simp] theorem advance_olen (s : State) : (advance s).olen = s.olen := rfl
@[simp] theorem advance_st (s : State) : (advance s).st = s.st := rfl
@[simp] theorem advance_exp (s : State) : (advance s).exp = s.exp := rfl
@[simp] theorem advance_got (s : State) : (advance s).got = s.got := rfl
@[simp] theorem advance_ecmd (s : State) : (advance s).ecmd = s.ecmd := rfl
@[simp] theorem advance_ph (s : State) : (advance s).ph = s.ph := rfl
@[simp] theorem advance_rnd (s : State) : (advance s).rnd = s.rnd := rfl
@[simp] theorem advance_dirq (s : State) : (advance s).dirq = s.dirq := rfl
@[simp] theorem advance_l (s : State) : (advance s).l = s.l := rfl
@[simp] theorem advance_r (s : State) : (advance s).r = s.r := rfl
@[simp] theorem advance_inputs (s : State) : (advance s).inputs = s.inputs.tail := rfl

/-! ### `presentWord` -/

@[simp] theorem presentWord_key (s : State) (w : Word) : (presentWord s w).key = s.key := rfl
@[simp] theorem presentWord_klen (s : State) (w : Word) : (presentWord s w).klen = s.klen := rfl
@[simp] theorem presentWord_dout (s : State) (w : Word) : (presentWord s w).dout = s.dout := rfl
@[simp] theorem presentWord_olen (s : State) (w : Word) : (presentWord s w).olen = s.olen := rfl
@[simp] theorem presentWord_st (s : State) (w : Word) : (presentWord s w).st = stOf false s.done s.errk := rfl
@[simp] theorem presentWord_exp (s : State) (w : Word) : (presentWord s w).exp = s.exp := rfl
@[simp] theorem presentWord_got (s : State) (w : Word) : (presentWord s w).got = s.got := rfl
@[simp] theorem presentWord_ecmd (s : State) (w : Word) : (presentWord s w).ecmd = s.ecmd := rfl
@[simp] theorem presentWord_ph (s : State) (w : Word) : (presentWord s w).ph = .idle := rfl
@[simp] theorem presentWord_rnd (s : State) (w : Word) : (presentWord s w).rnd = 0#5 := rfl
@[simp] theorem presentWord_dirq (s : State) (w : Word) : (presentWord s w).dirq = .forward := rfl
@[simp] theorem presentWord_l (s : State) (w : Word) : (presentWord s w).l = 0#32 := rfl
@[simp] theorem presentWord_r (s : State) (w : Word) : (presentWord s w).r = 0#32 := rfl
@[simp] theorem presentWord_inputs (s : State) (w : Word) : (presentWord s w).inputs = s.ports.present w :: s.inputs.tail := rfl

/-! ### `settle` keeps what no completion writes -/

@[simp] theorem settle_ok (s : State) (w : Word) (res : Result) : settle s w (.ok res) = complete s res := rfl
@[simp] theorem settle_error (s : State) (w : Word) (k : Raise) : settle s w (.error k) = raise s k w := rfl

theorem settle_key (s : State) (w : Word) (x : Except Raise Result) : (settle s w x).key = s.key := by cases x <;> rfl
theorem settle_klen (s : State) (w : Word) (x : Except Raise Result) : (settle s w x).klen = s.klen := by cases x <;> rfl
theorem settle_inputs (s : State) (w : Word) (x : Except Raise Result) : (settle s w x).inputs = s.inputs := by cases x <;> rfl
theorem settle_ph (s : State) (w : Word) (x : Except Raise Result) : (settle s w x).ph = .idle := by cases x <;> rfl

/-! ### The fields of `ST` -/

@[simp] theorem busy_stOf (b d : Bool) (k : BitVec 2) : (stOf b d k).getLsbD 3 = b := by revert b d k; decide
@[simp] theorem done_stOf (b d : Bool) (k : BitVec 2) : (stOf b d k).getLsbD 2 = d := by revert b d k; decide
@[simp] theorem errk_stOf (b d : Bool) (k : BitVec 2) : (stOf b d k).extractLsb' 0 2 = k := by revert b d k; decide

theorem busy_of_st {s : State} {b d : Bool} {k : BitVec 2} (h : s.st = stOf b d k) : s.busy = b := by rw [State.busy, h, busy_stOf]
theorem done_of_st {s : State} {b d : Bool} {k : BitVec 2} (h : s.st = stOf b d k) : s.done = d := by rw [State.done, h, done_stOf]
theorem errk_of_st {s : State} {b d : Bool} {k : BitVec 2} (h : s.st = stOf b d k) : s.errk = k := by rw [State.errk, h, errk_stOf]

/-- `ST` is its three fields (10_state.md R25). -/
theorem st_eq_stOf (s : State) : s.st = stOf s.busy s.done s.errk := by
  have h : ∀ x : BitVec 4, x = stOf (x.getLsbD 3) (x.getLsbD 2) (x.extractLsb' 0 2) := by decide
  exact h s.st

/-! ### The ports -/

@[simp] theorem ports_nil {s : State} (h : s.inputs = []) : s.ports = Ports.quiet := by simp [State.ports, h]
@[simp] theorem ports_cons {s : State} {p : Ports} {q : List Ports} (h : s.inputs = p :: q) : s.ports = p := by
  simp [State.ports, h]

/-- The ports are the head of what the host drives. -/
theorem ports_eq_getD (s : State) : s.ports = s.inputs.getD 0 Ports.quiet := by
  cases h : s.inputs <;> simp [State.ports, h]

end Sys2Proof.Machine
end

