-- ==== Sys2Proof/Laws/Ops.lean ====
section
/-! SUPPORT. One lemma per shared operation, which says everything it can do. -/

namespace Sys2Proof.Machine

/-! ### Completion and fault entry -/

/-- A completion with the sequence `v` (10_state.md R24 to R26). -/
theorem completed_of {n : Nat} (s : State) (v : BitVec n) :
    Completed s (complete s (Result.of v)) n (fun i => v.getMsbD i) := by
  refine ⟨rfl, fun i hi => ?_⟩
  rw [complete_dout, Result.of, getMsbD_bus]
  by_cases h : i < n
  · simp [hi, h]
  · simp [hi, h, getMsbD_of_le v (Nat.le_of_not_lt h)]

/-- A completion read through other names of the same bits. -/
theorem Completed.congr {s t : State} {n : Nat} {f g : Nat → Bool} (h : Completed s t n f) (hfg : ∀ i < n, f i = g i) :
    Completed s t n g := by
  refine ⟨h.1, fun i hi => ?_⟩
  rw [h.2 i hi]
  by_cases hn : i < n
  · simp [hn, hfg i hn]
  · simp [hn]

/-- Fault entry (60_exceptions.md R214). -/
theorem faulted_raise (s : State) (k : Raise) (w : Word) : Faulted s (raise s k w) k.errk k.exp k.got w := by
  have h : ∀ x : BitVec 2, stOf false true x = 0b01#2 ++ x := by decide
  simp only [Faulted, raise, finish, Result.none, h]

/-! ### The key schedule -/

/-- Everything `RK` can answer (42_key_schedule.md R164). -/
theorem rk_cases (key : Bus) (klen : Len) (r : Nat) (d : Direction) :
    (klen.toNat < 64 ∧ rk key klen r d = .error (.invalidLength 64#7 klen)) ∨
    (64 ≤ klen.toNat ∧ (r < 1 ∨ 16 < r) ∧ rk key klen r d = .error (.invalidRound (BitVec.ofNat 7 r))) ∨
    (64 ≤ klen.toNat ∧ 1 ≤ r ∧ r ≤ 16 ∧ rk key klen r d = .ok (roundKey (perm 56 .pc1 key) (rot r d))) := by
  unfold rk
  by_cases h : klen.toNat < 64
  · exact .inl ⟨h, by rw [if_pos h]⟩
  · by_cases h' : r < 1 ∨ 16 < r
    · exact .inr (.inl ⟨by omega, h', by rw [if_neg h, if_pos h']⟩)
    · exact .inr (.inr ⟨by omega, by omega, by omega, by rw [if_neg h, if_neg h', masterKey_of_le key (by omega)]⟩)

/-- `RK` answers a key exactly for a usable key and a round in 1..16. -/
theorem rk_ok {key : Bus} {klen : Len} {r : Nat} (d : Direction) (hk : 64 ≤ klen.toNat) (h1 : 1 ≤ r) (h16 : r ≤ 16) :
    rk key klen r d = .ok (roundKey (perm 56 .pc1 key) (rot r d)) := by
  rcases rk_cases key klen r d with ⟨h, _⟩ | ⟨_, h, _⟩ | ⟨_, _, _, h⟩
  · omega
  · omega
  · exact h

theorem rk_short {key : Bus} {klen : Len} (r : Nat) (d : Direction) (hk : klen.toNat < 64) :
    rk key klen r d = .error (.invalidLength 64#7 klen) := by
  rcases rk_cases key klen r d with ⟨_, h⟩ | ⟨h, _⟩ | ⟨h, _⟩
  · exact h
  · omega
  · omega

theorem rk_badRound {key : Bus} {klen : Len} {r : Nat} (d : Direction) (hk : 64 ≤ klen.toNat) (hr : r < 1 ∨ 16 < r) :
    rk key klen r d = .error (.invalidRound (BitVec.ofNat 7 r)) := by
  rcases rk_cases key klen r d with ⟨h, _⟩ | ⟨_, _, h⟩ | ⟨_, h1, h2, _⟩
  · omega
  · exact h
  · omega

/-- The entries of `PC2` are positions of the 56-bit input (41_tables.md R132). -/
theorem pc2_entry_lt (j : Nat) : (prom .pc2).getD j 0 - 1 < 56 := by
  have h : ∀ j < 48, (prom .pc2).getD j 0 - 1 < 56 := by decide
  by_cases hj : j < 48
  · exact h j hj
  · have : (prom .pc2).length ≤ j := by have : (prom .pc2).length = 48 := rfl; omega
    simp [List.getD_eq_getElem?_getD, List.getElem?_eq_none this]

theorem rotatedIndex_lt {n p : Nat} : rotatedIndex n p < 56 := by
  unfold rotatedIndex
  split <;> omega

/-- The round key bit by bit (42_key_schedule.md R164). -/
theorem getMsbD_roundKey (key : Bus) (n j : Nat) (hj : j < 48) :
    (roundKey (perm 56 .pc1 key) n).getMsbD j = roundKeyBit key n j := by
  have hp := pc2_entry_lt j
  simp only [roundKey, getMsbD_perm, hj, decide_true, Bool.true_and, roundKeyBit]
  generalize (prom .pc2).getD j 0 - 1 = p at hp
  rw [getMsbD_join_key]
  unfold rotatedIndex
  by_cases h : p < 28
  · have h1 : (p + n % 28) % 28 = (p + n) % 28 := by omega
    have h2 : (p + n) % 28 < 28 := by omega
    have h3 : (p + n) % 28 < 56 := by omega
    simp only [h, if_true, getMsbD_rotl, getMsbD_slice, getMsbD_perm, h1, h2, h3, decide_true, Bool.true_and, Nat.zero_add]
  · have h0 : p - 28 < 28 := by omega
    have h1 : (p - 28 + n % 28) % 28 = (p - 28 + n) % 28 := by omega
    have h2 : (p - 28 + n) % 28 < 28 := by omega
    have h3 : 28 + (p - 28 + n) % 28 < 56 := by omega
    simp only [h, h0, if_false, getMsbD_rotl, getMsbD_slice, getMsbD_perm, h1, h2, h3, decide_true, Bool.true_and]

/-- `RK`'s key is the round key of its round and direction. -/
theorem isRoundKey_roundKey (key : Bus) (r : Nat) (d : Direction) :
    IsRoundKey key r d (roundKey (perm 56 .pc1 key) (rot r d)) := fun j hj => getMsbD_roundKey key _ j hj

/-- A round key is determined by its bits. -/
theorem IsRoundKey.eq {key : Bus} {r : Nat} {d : Direction} {k : BitVec 48} (h : IsRoundKey key r d k) :
    k = roundKey (perm 56 .pc1 key) (rot r d) :=
  eq_of_bits fun j hj => by rw [h j hj, getMsbD_roundKey key _ j hj]

/-! ### The round -/

@[simp] theorem round_left (h : Halves) (k : BitVec 48) : (round h k).left = h.right := rfl
@[simp] theorem round_right (h : Halves) (k : BitVec 48) : (round h k).right = h.left ^^^ feistel h.right k := rfl

/-- The join applied to a split block only swaps the halves before `IP_INVERSE`. -/
theorem splitBlock_join (a b : BitVec 32) : splitBlock (a ++ b) = ⟨a, b⟩ := by
  simp only [splitBlock]
  rw [slice_join_left, slice_join_right]

theorem join_splitBlock (t : BitVec 64) : (splitBlock t).left ++ (splitBlock t).right = t := join_slices t

/-- The two halves of a block as bit fields (00_scope.md R13, 43_feistel.md R187). -/
theorem splitBlock_eq (b : Bus) : splitBlock b = ⟨b.extractLsb' 32 32, b.extractLsb' 0 32⟩ := by
  rw [splitBlock, slice_high, slice_low]

/-- The S-box address is the equivalent reading of 41_tables.md R135. -/
theorem sboxAddr_eq : ∀ x : BitVec 6, sboxAddr x = 16 * (2 * (x.toNat / 32) + x.toNat % 2) + x.toNat / 2 % 16 := by decide

theorem sixBits_getMsbD : ∀ x : BitVec 6, (sixBits fun m => x.getMsbD m) = x.toNat := by decide

/-- One bit of one S-box (41_tables.md R135, R136). -/
theorem getMsbD_sub (b : SBox) (x : BitVec 6) {i : Nat} (hi : i < 4) :
    (sub b x).getMsbD i = (sboxEntry b x.toNat).testBit (3 - i) := by
  rw [sub, sboxAddr_eq, ← sboxEntry, getMsbD_ofNat _ hi]

/-- One bit of the joined S-box outputs: bit `q` is bit `q mod 4` of box `q div 4` (43_feistel.md R180 step c). -/
theorem getMsbD_substitute (x : BitVec 48) {q : Nat} (hq : q < 32) :
    (substitute x).getMsbD q =
      (sboxEntry (boxOfGroup (q / 4)) (sixBits fun m => x.getMsbD (6 * (q / 4) + m))).testBit (3 - q % 4) := by
  have h : ∀ g < 8, ∀ i < 4,
      (substitute x).getMsbD (4 * g + i) = (sub (boxOfGroup g) (slice x (6 * g) 6)).getMsbD i := by
    intro g hg i hi
    simp only [substitute, BitVec.getMsbD_append]
    interval_cases g <;> interval_cases i <;> rfl
  have := h (q / 4) (by omega) (q % 4) (by omega)
  rw [show 4 * (q / 4) + q % 4 = q by omega] at this
  rw [this, getMsbD_sub _ _ (by omega), ← sixBits_getMsbD]
  simp [sixBits]

/-! ### `CRYPT` -/

theorem cryptRounds_succ {key : Bus} {klen : Len} {d : Direction} {n : Nat} {h h' : Halves} {k : BitVec 48}
    (h1 : cryptRounds key klen d n h = .ok h') (h2 : rk key klen (n + 1) d = .ok k) :
    cryptRounds key klen d (n + 1) h = .ok (round h' k) := by
  simp only [cryptRounds, h1, h2]

/-- The loop with a usable key never faults and gives the halves after each round (43_feistel.md R187). -/
theorem cryptRounds_ok (key : Bus) {klen : Len} (d : Direction) (hk : 64 ≤ klen.toNat) (h : Halves) :
    ∀ n ≤ 16, ∃ h', cryptRounds key klen d n h = .ok h' := by
  intro n
  induction n with
  | zero => intro _; exact ⟨h, rfl⟩
  | succ n ih =>
    intro hn
    obtain ⟨h', e⟩ := ih (by omega)
    exact ⟨_, cryptRounds_succ e (rk_ok d hk (by omega) (by omega))⟩

/-- A key that is too short faults in round 1 (43_feistel.md R187). -/
theorem cryptRounds_short (key : Bus) {klen : Len} (d : Direction) (hk : klen.toNat < 64) (h : Halves) :
    ∀ n, cryptRounds key klen d (n + 1) h = .error (.invalidLength 64#7 klen) := by
  intro n
  induction n with
  | zero => simp only [cryptRounds, rk_short _ d hk]
  | succ n ih => rw [cryptRounds, ih]

end Sys2Proof.Machine
end

