-- ==== Sys2Proof/Laws/PerInstr.lean ====
section
/-! SUPPORT. Per-instruction families: one statement about the syntax of every command, one lemma per constructor. -/

namespace Sys2Proof.Laws

/-- `match` and `mask` of a row of spec/opcode_table.json: what its row says of a command's word. -/
def rowOf : Instr → Word × Word
  | .ldk => (0x1000#16, 0xFFFF#16)
  | .enc => (0x2000#16, 0xFFFF#16)
  | .dec => (0x3000#16, 0xFFFF#16)
  | .drk _ _ => (0x4000#16, 0xFF40#16)
  | .frd _ _ => (0x5000#16, 0xFF40#16)
  | .shfIp => (0x6000#16, 0xFFFF#16)
  | .shfIpInverse => (0x6100#16, 0xFFFF#16)
  | .shfE => (0x6200#16, 0xFFFF#16)
  | .shfP => (0x6300#16, 0xFFFF#16)
  | .shfPc1 => (0x6400#16, 0xFFFF#16)
  | .shfPc2 => (0x6500#16, 0xFFFF#16)
  | .shfS1 => (0x6800#16, 0xFFFF#16)
  | .shfS2 => (0x6900#16, 0xFFFF#16)
  | .shfS3 => (0x6A00#16, 0xFFFF#16)
  | .shfS4 => (0x6B00#16, 0xFFFF#16)
  | .shfS5 => (0x6C00#16, 0xFFFF#16)
  | .shfS6 => (0x6D00#16, 0xFFFF#16)
  | .shfS7 => (0x6E00#16, 0xFFFF#16)
  | .shfS8 => (0x6F00#16, 0xFFFF#16)
  | .trdIp _ => (0x7000#16, 0xFFC0#16)
  | .trdIpInverse _ => (0x7100#16, 0xFFC0#16)
  | .trdE _ => (0x7200#16, 0xFFC0#16)
  | .trdP _ => (0x7300#16, 0xFFC0#16)
  | .trdPc1 _ => (0x7400#16, 0xFFC0#16)
  | .trdPc2 _ => (0x7500#16, 0xFFC0#16)
  | .trdS1 _ => (0x7800#16, 0xFFC0#16)
  | .trdS2 _ => (0x7900#16, 0xFFC0#16)
  | .trdS3 _ => (0x7A00#16, 0xFFC0#16)
  | .trdS4 _ => (0x7B00#16, 0xFFC0#16)
  | .trdS5 _ => (0x7C00#16, 0xFFC0#16)
  | .trdS6 _ => (0x7D00#16, 0xFFC0#16)
  | .trdS7 _ => (0x7E00#16, 0xFFC0#16)
  | .trdS8 _ => (0x7F00#16, 0xFFC0#16)

/-- The fixed bits of a command's word are those of its row of the opcode table (30_encoding.md R74). -/
def RowMatch.Statement (i : Instr) : Prop := encode i &&& (rowOf i).2 = (rowOf i).1

/-- A mask that keeps all bits but `DIR` and `IDX` keeps the operation code of a word that has no table. -/
theorem round_word_fixed (op : BitVec 4) (dir : BitVec 1) (r : Idx) :
    wordOf op 0#4 dir r &&& 0xFF40#16 = (op ++ 0#12 : BitVec (4 + 12)) := by
  apply BitVec.eq_of_getLsbD_eq
  intro i hi
  simp only [wordOf, BitVec.getLsbD_and, BitVec.getLsbD_append]
  interval_cases i <;> simp

/-- A mask that keeps all bits but `IDX` keeps the operation code and the table of a word with `DIR` zero. -/
theorem index_word_fixed (op tbl : BitVec 4) (k : Idx) :
    wordOf op tbl 0#1 k &&& 0xFFC0#16 = (op ++ tbl ++ 0#8 : BitVec (4 + 4 + 8)) := by
  apply BitVec.eq_of_getLsbD_eq
  intro i hi
  simp only [wordOf, BitVec.getLsbD_and, BitVec.getLsbD_append]
  interval_cases i <;> simp

theorem RowMatch.ldk : RowMatch.Statement .ldk := by unfold RowMatch.Statement; decide
theorem RowMatch.enc : RowMatch.Statement .enc := by unfold RowMatch.Statement; decide
theorem RowMatch.dec : RowMatch.Statement .dec := by unfold RowMatch.Statement; decide
theorem RowMatch.drk (d : Direction) (r : Idx) : RowMatch.Statement (.drk d r) := round_word_fixed 4#4 (bitOfDir d) r
theorem RowMatch.frd (d : Direction) (r : Idx) : RowMatch.Statement (.frd d r) := round_word_fixed 5#4 (bitOfDir d) r
theorem RowMatch.shfIp : RowMatch.Statement .shfIp := by unfold RowMatch.Statement; decide
theorem RowMatch.shfIpInverse : RowMatch.Statement .shfIpInverse := by unfold RowMatch.Statement; decide
theorem RowMatch.shfE : RowMatch.Statement .shfE := by unfold RowMatch.Statement; decide
theorem RowMatch.shfP : RowMatch.Statement .shfP := by unfold RowMatch.Statement; decide
theorem RowMatch.shfPc1 : RowMatch.Statement .shfPc1 := by unfold RowMatch.Statement; decide
theorem RowMatch.shfPc2 : RowMatch.Statement .shfPc2 := by unfold RowMatch.Statement; decide
theorem RowMatch.shfS1 : RowMatch.Statement .shfS1 := by unfold RowMatch.Statement; decide
theorem RowMatch.shfS2 : RowMatch.Statement .shfS2 := by unfold RowMatch.Statement; decide
theorem RowMatch.shfS3 : RowMatch.Statement .shfS3 := by unfold RowMatch.Statement; decide
theorem RowMatch.shfS4 : RowMatch.Statement .shfS4 := by unfold RowMatch.Statement; decide
theorem RowMatch.shfS5 : RowMatch.Statement .shfS5 := by unfold RowMatch.Statement; decide
theorem RowMatch.shfS6 : RowMatch.Statement .shfS6 := by unfold RowMatch.Statement; decide
theorem RowMatch.shfS7 : RowMatch.Statement .shfS7 := by unfold RowMatch.Statement; decide
theorem RowMatch.shfS8 : RowMatch.Statement .shfS8 := by unfold RowMatch.Statement; decide
theorem RowMatch.trdIp (k : Idx) : RowMatch.Statement (.trdIp k) := index_word_fixed 7#4 0#4 k
theorem RowMatch.trdIpInverse (k : Idx) : RowMatch.Statement (.trdIpInverse k) := index_word_fixed 7#4 1#4 k
theorem RowMatch.trdE (k : Idx) : RowMatch.Statement (.trdE k) := index_word_fixed 7#4 2#4 k
theorem RowMatch.trdP (k : Idx) : RowMatch.Statement (.trdP k) := index_word_fixed 7#4 3#4 k
theorem RowMatch.trdPc1 (k : Idx) : RowMatch.Statement (.trdPc1 k) := index_word_fixed 7#4 4#4 k
theorem RowMatch.trdPc2 (k : Idx) : RowMatch.Statement (.trdPc2 k) := index_word_fixed 7#4 5#4 k
theorem RowMatch.trdS1 (k : Idx) : RowMatch.Statement (.trdS1 k) := index_word_fixed 7#4 8#4 k
theorem RowMatch.trdS2 (k : Idx) : RowMatch.Statement (.trdS2 k) := index_word_fixed 7#4 9#4 k
theorem RowMatch.trdS3 (k : Idx) : RowMatch.Statement (.trdS3 k) := index_word_fixed 7#4 10#4 k
theorem RowMatch.trdS4 (k : Idx) : RowMatch.Statement (.trdS4 k) := index_word_fixed 7#4 11#4 k
theorem RowMatch.trdS5 (k : Idx) : RowMatch.Statement (.trdS5 k) := index_word_fixed 7#4 12#4 k
theorem RowMatch.trdS6 (k : Idx) : RowMatch.Statement (.trdS6 k) := index_word_fixed 7#4 13#4 k
theorem RowMatch.trdS7 (k : Idx) : RowMatch.Statement (.trdS7 k) := index_word_fixed 7#4 14#4 k
theorem RowMatch.trdS8 (k : Idx) : RowMatch.Statement (.trdS8 k) := index_word_fixed 7#4 15#4 k

end Sys2Proof.Laws
end

