-- ==== Sys2Proof/Laws/Step.lean ====
section
/-! SUPPORT. What `exec` and `step` can do, said once: seven shapes of command, and the cases of a step (10_state.md R30). -/

namespace Sys2Proof.Machine

/-- Every command has one of the seven shapes of 30_encoding.md R74. -/
theorem instr_shape (i : Instr) :
    i = .ldk ∨ i = .enc ∨ i = .dec ∨ (∃ d r, i = .drk d r) ∨ (∃ d r, i = .frd d r) ∨ (∃ t, i = .shf t) ∨
      (∃ t k, i = .trd t k) := by
  cases i with
  | ldk => exact .inl rfl
  | enc => exact .inr (.inl rfl)
  | dec => exact .inr (.inr (.inl rfl))
  | drk d r => exact .inr (.inr (.inr (.inl ⟨d, r, rfl⟩)))
  | frd d r => exact .inr (.inr (.inr (.inr (.inl ⟨d, r, rfl⟩))))
  | shfIp => exact .inr (.inr (.inr (.inr (.inr (.inl ⟨.pos .ip, rfl⟩)))))
  | shfIpInverse => exact .inr (.inr (.inr (.inr (.inr (.inl ⟨.pos .ipInverse, rfl⟩)))))
  | shfE => exact .inr (.inr (.inr (.inr (.inr (.inl ⟨.pos .e, rfl⟩)))))
  | shfP => exact .inr (.inr (.inr (.inr (.inr (.inl ⟨.pos .p, rfl⟩)))))
  | shfPc1 => exact .inr (.inr (.inr (.inr (.inr (.inl ⟨.pos .pc1, rfl⟩)))))
  | shfPc2 => exact .inr (.inr (.inr (.inr (.inr (.inl ⟨.pos .pc2, rfl⟩)))))
  | shfS1 => exact .inr (.inr (.inr (.inr (.inr (.inl ⟨.box .s1, rfl⟩)))))
  | shfS2 => exact .inr (.inr (.inr (.inr (.inr (.inl ⟨.box .s2, rfl⟩)))))
  | shfS3 => exact .inr (.inr (.inr (.inr (.inr (.inl ⟨.box .s3, rfl⟩)))))
  | shfS4 => exact .inr (.inr (.inr (.inr (.inr (.inl ⟨.box .s4, rfl⟩)))))
  | shfS5 => exact .inr (.inr (.inr (.inr (.inr (.inl ⟨.box .s5, rfl⟩)))))
  | shfS6 => exact .inr (.inr (.inr (.inr (.inr (.inl ⟨.box .s6, rfl⟩)))))
  | shfS7 => exact .inr (.inr (.inr (.inr (.inr (.inl ⟨.box .s7, rfl⟩)))))
  | shfS8 => exact .inr (.inr (.inr (.inr (.inr (.inl ⟨.box .s8, rfl⟩)))))
  | trdIp k => exact .inr (.inr (.inr (.inr (.inr (.inr ⟨.pos .ip, k, rfl⟩)))))
  | trdIpInverse k => exact .inr (.inr (.inr (.inr (.inr (.inr ⟨.pos .ipInverse, k, rfl⟩)))))
  | trdE k => exact .inr (.inr (.inr (.inr (.inr (.inr ⟨.pos .e, k, rfl⟩)))))
  | trdP k => exact .inr (.inr (.inr (.inr (.inr (.inr ⟨.pos .p, k, rfl⟩)))))
  | trdPc1 k => exact .inr (.inr (.inr (.inr (.inr (.inr ⟨.pos .pc1, k, rfl⟩)))))
  | trdPc2 k => exact .inr (.inr (.inr (.inr (.inr (.inr ⟨.pos .pc2, k, rfl⟩)))))
  | trdS1 k => exact .inr (.inr (.inr (.inr (.inr (.inr ⟨.box .s1, k, rfl⟩)))))
  | trdS2 k => exact .inr (.inr (.inr (.inr (.inr (.inr ⟨.box .s2, k, rfl⟩)))))
  | trdS3 k => exact .inr (.inr (.inr (.inr (.inr (.inr ⟨.box .s3, k, rfl⟩)))))
  | trdS4 k => exact .inr (.inr (.inr (.inr (.inr (.inr ⟨.box .s4, k, rfl⟩)))))
  | trdS5 k => exact .inr (.inr (.inr (.inr (.inr (.inr ⟨.box .s5, k, rfl⟩)))))
  | trdS6 k => exact .inr (.inr (.inr (.inr (.inr (.inr ⟨.box .s6, k, rfl⟩)))))
  | trdS7 k => exact .inr (.inr (.inr (.inr (.inr (.inr ⟨.box .s7, k, rfl⟩)))))
  | trdS8 k => exact .inr (.inr (.inr (.inr (.inr (.inr ⟨.box .s8, k, rfl⟩)))))

/-- The value of a `SHF`. -/
def shfValue : Table → State → Except Raise Result
  | .pos t, s => shfPos t s
  | .box b, s => shfBox b s

/-- The value of a `TRD`. -/
def trdValue : Table → Idx → Except Raise Result
  | .pos t, k => trdPos t k
  | .box b, k => trdBox b k

theorem exec_ldk (s : State) :
    exec .ldk s = .next (complete { s with key := s.operand, klen := s.operandLen } Result.none) := rfl
theorem exec_enc (s : State) : exec .enc s = .next (acceptCrypt .forward s) := rfl
theorem exec_dec (s : State) : exec .dec s = .next (acceptCrypt .reverse s) := rfl
theorem exec_drk (d : Direction) (r : Idx) (s : State) :
    exec (.drk d r) s = .next (settle s (encode (.drk d r)) ((rk s.key s.klen r.toNat d).map Result.of)) := rfl
theorem exec_frd (d : Direction) (r : Idx) (s : State) :
    exec (.frd d r) s = .next (settle s (encode (.frd d r)) (frdValue d r s)) := rfl
theorem exec_shf (t : Table) (s : State) :
    exec (.shf t) s = .next (settle s (encode (.shf t)) (shfValue t s)) := by
  rcases t with t | b
  · cases t <;> rfl
  · cases b <;> rfl
theorem exec_trd (t : Table) (k : Idx) (s : State) :
    exec (.trd t k) s = .next (settle s (encode (.trd t k)) (trdValue t k)) := by
  rcases t with t | b
  · cases t <;> rfl
  · cases b <;> rfl

/-- Everything `exec` can do: load a key, accept an `ENC` or `DEC`, or settle a one-step command. -/
theorem exec_cases (i : Instr) (s : State) :
    (i = .ldk ∧ exec i s = .next (complete { s with key := s.operand, klen := s.operandLen } Result.none)) ∨
    (∃ d, (i = .enc ∧ d = .forward ∨ i = .dec ∧ d = .reverse) ∧ exec i s = .next (acceptCrypt d s)) ∨
    (i ≠ .ldk ∧ i ≠ .enc ∧ i ≠ .dec ∧ ∃ x, exec i s = .next (settle s (encode i) x)) := by
  rcases instr_shape i with rfl | rfl | rfl | ⟨d, r, rfl⟩ | ⟨d, r, rfl⟩ | ⟨t, rfl⟩ | ⟨t, k, rfl⟩
  · exact .inl ⟨rfl, rfl⟩
  · exact .inr (.inl ⟨.forward, .inl ⟨rfl, rfl⟩, rfl⟩)
  · exact .inr (.inl ⟨.reverse, .inr ⟨rfl, rfl⟩, rfl⟩)
  · exact .inr (.inr ⟨by simp, by simp, by simp, _, exec_drk d r s⟩)
  · exact .inr (.inr ⟨by simp, by simp, by simp, _, exec_frd d r s⟩)
  · refine .inr (.inr ⟨?_, ?_, ?_, _, exec_shf t s⟩) <;> (rcases t with t | b <;> [cases t; cases b] <;> simp [Instr.shf])
  · refine .inr (.inr ⟨?_, ?_, ?_, _, exec_trd t k s⟩) <;> (rcases t with t | b <;> [cases t; cases b] <;> simp [Instr.trd])

/-- Everything the accept step of `ENC` or `DEC` can do (43_feistel.md R190). -/
theorem acceptCrypt_cases (d : Direction) (s : State) :
    (s.operandLen ≠ 64#7 ∧ acceptCrypt d s = raise s (.invalidLength 64#7 s.operandLen) (cryptWord d)) ∨
    (s.operandLen = 64#7 ∧ acceptCrypt d s = startRun d s) := by
  unfold acceptCrypt
  by_cases h : s.operandLen = 64#7
  · exact .inr ⟨h, by simp [h]⟩
  · exact .inl ⟨h, by simp [h]⟩

/-- Everything a round step can do (43_feistel.md R191). -/
theorem roundStep_cases (s : State) :
    (s.klen.toNat < 64 ∧ roundStep s = raise s (.invalidLength 64#7 s.klen) (cryptWord s.dirq)) ∨
    (64 ≤ s.klen.toNat ∧ (s.rnd.toNat < 1 ∨ 16 < s.rnd.toNat) ∧
      roundStep s = raise s (.invalidRound (BitVec.ofNat 7 s.rnd.toNat)) (cryptWord s.dirq)) ∨
    (64 ≤ s.klen.toNat ∧ 1 ≤ s.rnd.toNat ∧ s.rnd.toNat < 16 ∧ ∃ h,
      h = round ⟨s.l, s.r⟩ (roundKey (perm 56 .pc1 s.key) (rot s.rnd.toNat s.dirq)) ∧
      roundStep s = { s with l := h.left, r := h.right, rnd := s.rnd + 1#5 }) ∨
    (64 ≤ s.klen.toNat ∧ s.rnd.toNat = 16 ∧
      roundStep s = complete s (Result.of (joinBlock
        (round ⟨s.l, s.r⟩ (roundKey (perm 56 .pc1 s.key) (rot 16 s.dirq)))))) := by
  unfold roundStep
  rcases rk_cases s.key s.klen s.rnd.toNat s.dirq with ⟨h, e⟩ | ⟨h, h', e⟩ | ⟨h, h1, h2, e⟩
  · exact .inl ⟨h, by rw [e]⟩
  · exact .inr (.inl ⟨h, h', by rw [e]⟩)
  · by_cases h3 : s.rnd.toNat < 16
    · exact .inr (.inr (.inl ⟨h, h1, h3, _, rfl, by rw [e]; simp [h3]⟩))
    · have h4 : s.rnd.toNat = 16 := by omega
      exact .inr (.inr (.inr ⟨h, h4, by rw [e]; simp [h4]⟩))

/-- Everything a step can do (10_state.md R30 cases a to d). -/
theorem step_cases (s : State) :
    (s.ports.rst = true ∧ step s = .next (advance (resetStep s))) ∨
    (s.ports.rst = false ∧ s.ph = .idle ∧ s.ports.cmdValid = false ∧ step s = .next (advance s)) ∨
    (Accepts s ∧ (∃ e, decode s.ports.cmd = .error e) ∧ step s = .next (advance (illegalWord s))) ∨
    (∃ i, Accepts s ∧ decode s.ports.cmd = .ok i ∧ step s = advanceOutcome (exec i s)) ∨
    (s.ports.rst = false ∧ s.ph = .run ∧ step s = .next (advance (roundStep s))) := by
  unfold step engineStep Accepts
  by_cases hr : s.ports.rst = true
  · exact .inl ⟨hr, by simp [hr, advanceOutcome]⟩
  · have hr' : s.ports.rst = false := by simpa using hr
    cases hp : s.ph with
    | run => exact .inr (.inr (.inr (.inr ⟨hr', rfl, by simp [hr', advanceOutcome]⟩)))
    | idle =>
      by_cases hv : s.ports.cmdValid = true
      · cases hd : decode s.ports.cmd with
        | error e =>
          exact .inr (.inr (.inl ⟨⟨hr', rfl, hv⟩, ⟨e, rfl⟩, by simp [hr', hv, acceptStep, hd, advanceOutcome]⟩))
        | ok i =>
          exact .inr (.inr (.inr (.inl ⟨i, ⟨hr', rfl, hv⟩, rfl, by simp [hr', hv, acceptStep, hd]⟩)))
      · have hv' : s.ports.cmdValid = false := by simpa using hv
        exact .inr (.inl ⟨hr', rfl, hv', by simp [hr', hv', advanceOutcome]⟩)

/-- The accept step of a decoded command. -/
theorem step_of_decode {s : State} {i : Instr} (h : Accepts s) (hd : decode s.ports.cmd = .ok i) :
    step s = advanceOutcome (exec i s) := by
  obtain ⟨h1, h2, h3⟩ := h
  simp [step, engineStep, acceptStep, h1, h2, h3, hd]

/-- The round step of a machine that runs. -/
theorem step_of_run {s : State} (hr : s.ports.rst = false) (hp : s.ph = .run) : step s = .next (advance (roundStep s)) := by
  simp [step, engineStep, hr, hp, advanceOutcome]

/-- One step of a run of several (Host/Core.lean). -/
theorem run_succ_of_next {s t : State} {n : Nat} (h : step s = .next t) :
    Host.Core.run Sys2Proof.core (n + 1) s = Host.Core.run Sys2Proof.core n t := by
  have h' : Host.Core.step Sys2Proof.core s = .next t := h
  simp only [Host.Core.run, h']

theorem run_zero (s : State) : Host.Core.run Sys2Proof.core 0 s = .next s := rfl

/-- A run ends with the step after its last state. -/
theorem run_snoc {n : Nat} : ∀ {s t u : State}, Host.Core.run Sys2Proof.core n s = .next t → step t = .next u →
    Host.Core.run Sys2Proof.core (n + 1) s = .next u := by
  induction n with
  | zero =>
    intro s t u h h'
    rw [run_zero] at h
    injection h with h
    subst h
    rw [run_succ_of_next h', run_zero]
  | succ n ih =>
    intro s t u h h'
    cases hs : step s with
    | next v =>
      rw [run_succ_of_next hs] at h ⊢
      exact ih h h'
    | fault f => cases f
    | refused r =>
      have hr : Host.Core.step Sys2Proof.core s = .refused r := hs
      simp only [Host.Core.run, hr] at h
      cases h

/-- The host's samples after one step. -/
theorem NoReset.advance {n : Nat} {s : State} (h : NoReset (n + 1) s) : NoReset n (advance s) := by
  intro k hk
  have := h (k + 1) (by omega)
  cases hs : s.inputs with
  | nil => simp [Machine.advance, hs, Ports.quiet]
  | cons p q => simpa [Machine.advance, hs] using this

theorem NoReset.rst {n : Nat} {s : State} (h : NoReset (n + 1) s) : s.ports.rst = false := by
  rw [ports_eq_getD]; exact h 0 (by omega)

/-- What the host drives is the only thing `NoReset` looks at. -/
theorem NoReset.of_inputs {n : Nat} {s t : State} (h : NoReset n s) (e : t.inputs = s.inputs) : NoReset n t := by
  intro k hk; rw [e]; exact h k hk

/-! ### What the host drives is not the engine's to change -/

theorem acceptCrypt_inputs (d : Direction) (s : State) : (acceptCrypt d s).inputs = s.inputs := by
  rcases acceptCrypt_cases d s with ⟨_, e⟩ | ⟨_, e⟩ <;> rw [e] <;> rfl

theorem exec_inputs {i : Instr} {s t : State} (h : exec i s = .next t) : t.inputs = s.inputs := by
  rcases exec_cases i s with ⟨_, h'⟩ | ⟨d, _, h'⟩ | ⟨_, _, _, _, h'⟩ <;> (rw [h'] at h; injection h with h; subst h)
  · rfl
  · exact acceptCrypt_inputs d s
  · exact settle_inputs _ _ _

/-- A round step reads no port (70_reset_and_hazards.md R254). -/
theorem roundStep_inputs (s : State) (q : List Ports) : roundStep { s with inputs := q } = { roundStep s with inputs := q } := by
  simp only [roundStep]
  split
  · rfl
  · split <;> rfl

/-- The operand is the bus itself once it is declared as long as the bus (10_state.md R27). -/
theorem operand_of_le {s : State} (h : 64 ≤ s.ports.dlen.toNat) : s.operand = s.ports.din := carried_of_le _ h

end Sys2Proof.Machine
end

