-- ==== Sys2Proof/Tests/Slice0.lean ====
section
/-! SUPPORT. The model's own tests. Every expected value is one that 95_test_vectors.md or 30_encoding.md states; the
section is named at each group. Then, for every obligation that has hypotheses, a theorem `witness_...` that shows concrete
states and operands which meet all of them together. -/

namespace Sys2Proof.Tests

open Sys2Proof.Machine

set_option Elab.async false

/-! ### Small states -/

/-- The machine after reset, on whose ports the host presents the word `w` with an operand. -/
def presents (w : Word) (din : Bus) (dlen : Len) : State :=
  { State.reset with inputs := [⟨false, true, w, din, dlen⟩] }

/-- The same with a key loaded. -/
def keyed (key : Bus) (klen : Len) (w : Word) (din : Bus) (dlen : Len) : State :=
  { presents w din dlen with key := key, klen := klen }

/-- A machine in mid-run, with the key of trace T1. -/
def running (klen : Len) (l r : BitVec 32) (rnd : BitVec 5) : State :=
  { State.reset with
    key := 0x0E329232EA6D0D73#64, klen := klen, st := 0b1000#4, ph := .run, rnd := rnd, l := l, r := r }

/-- What a step leaves in `DOUT`, `OLEN` and `ST`. -/
def result (s : State) : Option (Bus × Len × BitVec 4) := (nextState (step s)).map fun t => (t.dout, t.olen, t.st)

/-- What a step leaves in `ST`, `EXP`, `GOT` and `ECMD`. -/
def verdict (s : State) : Option (BitVec 4 × Len × Len × Word) :=
  (nextState (step s)).map fun t => (t.st, t.exp, t.got, t.ecmd)

theorem next_of_some {o : Host.Outcome State Fault Refusal} {t : State} (h : nextState o = some t) : o = .next t := by
  cases o <;> simp_all [nextState]

theorem next_of_any {o : Host.Outcome State Fault Refusal} {p : State → Bool} (h : (nextState o).any p = true) :
    ∃ t, o = .next t ∧ p t = true := by
  cases o <;> simp_all [nextState]

/-! ### Well-formed and ill-formed terms (30_encoding.md R73; 20_memory.md R51) -/

theorem test_wf_trdE : (Instr.trdE 47#6).wf = true ∧ (Instr.trdE 48#6).wf = false := by decide
theorem test_wf_trdP : (Instr.trdP 31#6).wf = true ∧ (Instr.trdP 32#6).wf = false := by decide
theorem test_wf_trdPc1 : (Instr.trdPc1 55#6).wf = true ∧ (Instr.trdPc1 56#6).wf = false := by decide
theorem test_wf_trdPc2 : (Instr.trdPc2 47#6).wf = true ∧ (Instr.trdPc2 48#6).wf = false := by decide
theorem test_wf_round : (Instr.drk .reverse 63#6).wf = true ∧ (Instr.frd .forward 0#6).wf = true := by decide

/-! ### Decoding: a word of every command, bit by bit `OP TBL DIR Z IDX` (30_encoding.md R70 to R72) -/

theorem test_decode_ldk : decode 0b0001000000000000#16 = .ok .ldk := by decide
theorem test_decode_enc : decode 0b0010000000000000#16 = .ok .enc := by decide
theorem test_decode_dec : decode 0b0011000000000000#16 = .ok .dec := by decide
theorem test_decode_drk : decode 0b0100000010010000#16 = .ok (.drk .reverse 16#6) := by decide
theorem test_decode_frd : decode 0b0101000000010100#16 = .ok (.frd .forward 20#6) := by decide
theorem test_decode_shfIp : decode 0b0110000000000000#16 = .ok .shfIp := by decide
theorem test_decode_shfIpInverse : decode 0b0110000100000000#16 = .ok .shfIpInverse := by decide
theorem test_decode_shfE : decode 0b0110001000000000#16 = .ok .shfE := by decide
theorem test_decode_shfP : decode 0b0110001100000000#16 = .ok .shfP := by decide
theorem test_decode_shfPc1 : decode 0b0110010000000000#16 = .ok .shfPc1 := by decide
theorem test_decode_shfPc2 : decode 0b0110010100000000#16 = .ok .shfPc2 := by decide
theorem test_decode_shfS1 : decode 0b0110100000000000#16 = .ok .shfS1 := by decide
theorem test_decode_shfS2 : decode 0b0110100100000000#16 = .ok .shfS2 := by decide
theorem test_decode_shfS3 : decode 0b0110101000000000#16 = .ok .shfS3 := by decide
theorem test_decode_shfS4 : decode 0b0110101100000000#16 = .ok .shfS4 := by decide
theorem test_decode_shfS5 : decode 0b0110110000000000#16 = .ok .shfS5 := by decide
theorem test_decode_shfS6 : decode 0b0110110100000000#16 = .ok .shfS6 := by decide
theorem test_decode_shfS7 : decode 0b0110111000000000#16 = .ok .shfS7 := by decide
theorem test_decode_shfS8 : decode 0b0110111100000000#16 = .ok .shfS8 := by decide
theorem test_decode_trdIp : decode 0b0111000000001100#16 = .ok (.trdIp 12#6) := by decide
theorem test_decode_trdIpInverse : decode 0b0111000100111111#16 = .ok (.trdIpInverse 63#6) := by decide
theorem test_decode_trdE : decode 0b0111001000001010#16 = .ok (.trdE 10#6) := by decide
theorem test_decode_trdP : decode 0b0111001100011111#16 = .ok (.trdP 31#6) := by decide
theorem test_decode_trdPc1 : decode 0b0111010000000000#16 = .ok (.trdPc1 0#6) := by decide
theorem test_decode_trdPc2 : decode 0b0111010100101111#16 = .ok (.trdPc2 47#6) := by decide
theorem test_decode_trdS1 : decode 0b0111100000110110#16 = .ok (.trdS1 54#6) := by decide
theorem test_decode_trdS2 : decode 0b0111100100111111#16 = .ok (.trdS2 63#6) := by decide
theorem test_decode_trdS3 : decode 0b0111101000000100#16 = .ok (.trdS3 4#6) := by decide
theorem test_decode_trdS4 : decode 0b0111101100111111#16 = .ok (.trdS4 63#6) := by decide
theorem test_decode_trdS5 : decode 0b0111110000010010#16 = .ok (.trdS5 18#6) := by decide
theorem test_decode_trdS6 : decode 0b0111110100111111#16 = .ok (.trdS6 63#6) := by decide
theorem test_decode_trdS7 : decode 0b0111111000100000#16 = .ok (.trdS7 32#6) := by decide
theorem test_decode_trdS8 : decode 0b0111111100111111#16 = .ok (.trdS8 63#6) := by decide

/-- Illegal words, each refused by its own condition (95_test_vectors.md section 9, 30_encoding.md R73). -/
theorem test_decode_illegal :
    decode 0x0000#16 = .error .reservedOp ∧ decode 0xFFFF#16 = .error .zSet ∧ decode 0x8000#16 = .error .reservedOp ∧
    decode 0x4041#16 = .error .zSet ∧ decode 0x2001#16 = .error .unusedFieldSet ∧
    decode 0x4100#16 = .error .unusedFieldSet ∧ decode 0x6600#16 = .error .reservedTable ∧ decode 0x7700#16 = .error .reservedTable ∧
    decode 0x6080#16 = .error .unusedFieldSet ∧ decode 0x7080#16 = .error .unusedFieldSet ∧
    decode 0x7230#16 = .error .indexPastTable ∧ decode 0x7320#16 = .error .indexPastTable ∧
    decode 0x7438#16 = .error .indexPastTable ∧ decode 0x7530#16 = .error .indexPastTable := by decide

/-- A word longer than 16 bits is no instruction (30_encoding.md R70, R77). -/
theorem test_decodeTableWord :
    decodeTableWord 16 0x4090 = some (.drk .reverse 16#6) ∧ decodeTableWord 16 0x0000 = none ∧
      decodeTableWord 17 0x1000 = none := by
  decide

/-! ### One step of every command (95_test_vectors.md sections 2, 3, 5 and 7) -/

theorem test_step_ldk : (nextState (step (presents 0x1000#16 0x0E329232EA6D0D73#64 63#7))).map (fun t => (t.key, t.klen)) =
    some (0x0E329232EA6D0D72#64, 63#7) := by decide +kernel
theorem test_step_ldk_long : (nextState (step (presents 0x1000#16 0x0E329232EA6D0D73#64 100#7))).map
    (fun t => (t.key, t.klen)) = some (0x0E329232EA6D0D73#64, 100#7) := by decide +kernel
theorem test_step_enc_accept : (nextState (step (keyed 0x0E329232EA6D0D73#64 64#7 0x2000#16 0x8787878787878787#64 64#7))).map
    (fun t => (t.ph, t.rnd, t.l, t.r, t.st)) = some (.run, 1#5, 0x0000FFFF#32, 0xFF0000FF#32, 0b1000#4) := by decide +kernel
theorem test_step_enc_length : verdict (keyed 0x0E329232EA6D0D73#64 64#7 0x2000#16 0x8787878787878787#64 70#7) =
    some (0b0101#4, 64#7, 70#7, 0x2000#16) := by decide +kernel
theorem test_step_dec_accept : (nextState (step (keyed 0x0E329232EA6D0D73#64 64#7 0x3000#16 0#64 64#7))).map
    (fun t => (t.ph, t.dirq, t.rnd, t.l, t.r)) = some (.run, .reverse, 1#5, 0#32, 0#32) := by decide +kernel
theorem test_step_dec_length : verdict (keyed 0x0E329232EA6D0D73#64 64#7 0x3000#16 0#64 0#7) =
    some (0b0101#4, 64#7, 0#7, 0x3000#16) := by decide +kernel
theorem test_step_drk : result (keyed 0xAABB09182736CCDD#64 64#7 0x4090#16 0#64 0#7) =
    some (0x194CD072DE8C0000#64, 48#7, 0b0100#4) := by decide +kernel
theorem test_step_drk_round : verdict (keyed 0x0E329232EA6D0D73#64 64#7 0x4091#16 0#64 0#7) =
    some (0b0110#4, 0#7, 17#7, 0x4091#16) := by decide +kernel
theorem test_step_frd : result (keyed 0x0E329232EA6D0D73#64 64#7 0x5001#16 0x0000FFFFFF0000FF#64 64#7) =
    some (0xFF0000FFA3931787#64, 64#7, 0b0100#4) := by decide +kernel
theorem test_step_frd_order : verdict (keyed 0x0E329232EA6D0D73#64 64#7 0x5014#16 0x0000FFFFFF000000#64 56#7) =
    some (0b0101#4, 64#7, 56#7, 0x5014#16) := by decide +kernel
theorem test_step_shfIp : result (presents 0x6000#16 0x0123456789ABCDEF#64 64#7) =
    some (0xCC00CCFFF0AAF0AA#64, 64#7, 0b0100#4) := by decide +kernel
theorem test_step_shfIpInverse : result (presents 0x6100#16 0x0A4CD99543423234#64 64#7) =
    some (0x85E813540F0AB405#64, 64#7, 0b0100#4) := by decide +kernel
theorem test_step_shfE : result (presents 0x6200#16 0xF0AAF0AAFFFFFFFF#64 64#7) =
    some (0x7A15557A15550000#64, 48#7, 0b0100#4) := by decide +kernel
theorem test_step_shfP : result (presents 0x6300#16 0x5C82B59700000000#64 32#7) =
    some (0x234AA9BB00000000#64, 32#7, 0b0100#4) := by decide +kernel
theorem test_step_shfPc1 : result (presents 0x6400#16 0xAABB09182736CCDD#64 64#7) =
    some (0xC3C033A33F0CFA00#64, 56#7, 0b0100#4) := by decide +kernel
theorem test_step_shfPc2 : result (presents 0x6500#16 0x878067567E19F400#64 56#7) =
    some (0x194CD072DE8C0000#64, 48#7, 0b0100#4) := by decide +kernel
theorem test_step_shfPc2_length : verdict (presents 0x6500#16 0xC3C033A33F0CF000#64 52#7) =
    some (0b0101#4, 56#7, 52#7, 0x6500#16) := by decide +kernel
theorem test_step_shfPc1_length : verdict (presents 0x6400#16 0xAABB09182736CCDC#64 63#7) =
    some (0b0101#4, 64#7, 63#7, 0x6400#16) := by decide +kernel
theorem test_step_shfE_length : verdict (presents 0x6200#16 0xF0AAF0A000000000#64 28#7) =
    some (0b0101#4, 32#7, 28#7, 0x6200#16) := by decide +kernel
theorem test_step_shfP_length : verdict (presents 0x6300#16 0x0000000000000000#64 0#7) =
    some (0b0101#4, 32#7, 0#7, 0x6300#16) := by decide +kernel
theorem test_step_shfS1 : result (presents 0x6800#16 0x8000000000000000#64 6#7) =
    some (0x4000000000000000#64, 4#7, 0b0100#4) := by decide +kernel
theorem test_step_shfS2 : result (presents 0x6900#16 0x6C00000000000000#64 6#7) =
    some (0x9000000000000000#64, 4#7, 0b0100#4) := by decide +kernel
theorem test_step_shfS3 : result (presents 0x6A00#16 0x6C00000000000000#64 6#7) =
    some (0xB000000000000000#64, 4#7, 0b0100#4) := by decide +kernel
theorem test_step_shfS4 : result (presents 0x6B00#16 0x8400000000000000#64 6#7) =
    some (0x3000000000000000#64, 4#7, 0b0100#4) := by decide +kernel
theorem test_step_shfS5 : result (presents 0x6C00#16 0xB400000000000000#64 6#7) =
    some (0x2000000000000000#64, 4#7, 0b0100#4) := by decide +kernel
theorem test_step_shfS6 : result (presents 0x6D00#16 0x6C00000000000000#64 6#7) =
    some (0xB000000000000000#64, 4#7, 0b0100#4) := by decide +kernel
theorem test_step_shfS7 : result (presents 0x6E00#16 0x6C00000000000000#64 6#7) =
    some (0xF000000000000000#64, 4#7, 0b0100#4) := by decide +kernel
theorem test_step_shfS8 : result (presents 0x6F00#16 0xFC00000000000000#64 6#7) =
    some (0xB000000000000000#64, 4#7, 0b0100#4) := by decide +kernel
theorem test_step_shfS1_length : verdict (presents 0x6800#16 0x6C00000000000000#64 7#7) =
    some (0b0101#4, 6#7, 7#7, 0x6800#16) := by decide +kernel
theorem test_step_trdIp : result (presents 0x703F#16 0#64 0#7) =
    some (0x0E00000000000000#64, 7#7, 0b0100#4) := by decide +kernel
theorem test_step_trdIpInverse : result (presents 0x7100#16 0#64 0#7) =
    some (0x5000000000000000#64, 7#7, 0b0100#4) := by decide +kernel
theorem test_step_trdE : result (presents 0x722F#16 0#64 0#7) =
    some (0x0200000000000000#64, 7#7, 0b0100#4) := by decide +kernel
theorem test_step_trdP : result (presents 0x731F#16 0#64 0#7) =
    some (0x3200000000000000#64, 7#7, 0b0100#4) := by decide +kernel
theorem test_step_trdPc1 : result (presents 0x7437#16 0#64 0#7) =
    some (0x0800000000000000#64, 7#7, 0b0100#4) := by decide +kernel
theorem test_step_trdPc2 : result (presents 0x752F#16 0#64 0#7) =
    some (0x4000000000000000#64, 7#7, 0b0100#4) := by decide +kernel
theorem test_step_trdS1 : result (presents 0x781B#16 0#64 0#7) =
    some (0xB000000000000000#64, 4#7, 0b0100#4) := by decide +kernel
theorem test_step_trdS2 : result (presents 0x7911#16 0#64 0#7) =
    some (0xD000000000000000#64, 4#7, 0b0100#4) := by decide +kernel
theorem test_step_trdS3 : result (presents 0x7A22#16 0#64 0#7) =
    some (0x4000000000000000#64, 4#7, 0b0100#4) := by decide +kernel
theorem test_step_trdS4 : result (presents 0x7B32#16 0#64 0#7) =
    some (0x0000000000000000#64, 4#7, 0b0100#4) := by decide +kernel
theorem test_step_trdS5 : result (presents 0x7C10#16 0#64 0#7) =
    some (0xE000000000000000#64, 4#7, 0b0100#4) := by decide +kernel
theorem test_step_trdS6 : result (presents 0x7D29#16 0#64 0#7) =
    some (0x0000000000000000#64, 4#7, 0b0100#4) := by decide +kernel
theorem test_step_trdS7 : result (presents 0x7E3C#16 0#64 0#7) =
    some (0xE000000000000000#64, 4#7, 0b0100#4) := by decide +kernel
theorem test_step_trdS8 : result (presents 0x7F3F#16 0#64 0#7) =
    some (0xB000000000000000#64, 4#7, 0b0100#4) := by decide +kernel

/-- An index past its table is an illegal word in its accept step (95_test_vectors.md P4 line 14). -/
theorem test_step_illegal : verdict (presents 0x7230#16 0#64 0#7) = some (0b0111#4, 0#7, 0#7, 0x7230#16) := by decide +kernel

/-- The first and the last round step of trace T1 (95_test_vectors.md section 5, steps 2 and 17). -/
theorem test_round_first : (nextState (step (running 64#7 0x0000FFFF#32 0xFF0000FF#32 1#5))).map
    (fun t => (t.l, t.r, t.rnd, t.st)) = some (0xFF0000FF#32, 0xA3931787#32, 2#5, 0b1000#4) := by decide +kernel
theorem test_round_last : (nextState (step (running 64#7 0x507BB97E#32 0#32 16#5))).map
    (fun t => (t.ph, t.dout, t.olen, t.st)) = some (.idle, 0#64, 64#7, 0b0100#4) := by decide +kernel

/-- The second step of an `ENC` with no key (95_test_vectors.md P4 line 1). -/
theorem test_round_key_fault : verdict (running 0#7 0x0000FFFF#32 0xFF0000FF#32 1#5) =
    some (0b0101#4, 64#7, 0#7, 0x2000#16) := by decide +kernel

/-- A `DRK` with a short key and a bad round reports the length (95_test_vectors.md P4 line 3). -/
theorem test_fault_priority : verdict (keyed 0x0E329232EA6D0D72#64 63#7 0x4000#16 0#64 0#7) =
    some (0b0101#4, 64#7, 63#7, 0x4000#16) := by decide +kernel

/-- The round function (95_test_vectors.md section 4, first row). -/
theorem test_feistel : feistel 0xF0AAF0AA#32 0x1B02EFFC7072#48 = 0x234AA9BB#32 := by decide +kernel

/-- The bit-sequence examples of 40_bitsequence.md R101 and R103, and the byte order of 20_memory.md R57. -/
theorem test_slice : slice 0x0000FFFFFF0000FF#64 32 32 = 0xFF0000FF#32 := by decide +kernel
theorem test_rotl : rotl 0x8000001#28 1 = 0x0000003#28 := by decide +kernel
theorem test_hostByte : hostByte 0x0123456789ABCDEF#64 0 = 0x01#8 ∧ hostByte 0x0123456789ABCDEF#64 7 = 0xEF#8 := by
  decide +kernel

/-- The host's registers by number (10_state.md R33): the fault record after 95_test_vectors.md P4 line 3. -/
theorem test_readReg :
    ((nextState (step (keyed 0x0E329232EA6D0D72#64 63#7 0x4000#16 0#64 0#7))).bind fun t => t.readReg 6) =
      some (BitVec.ofNat 64 (64 * 2 ^ 23 + 63 * 2 ^ 16 + 0x4000)) := by decide +kernel

/-- `withFetchWord` makes the very next step run the word (log 1; 95_test_vectors.md section 2, `TRD IP, 0`). -/
theorem test_withFetchWord : (nextState (step (State.reset.withFetchWord 16 0x7000))).map (·.dout) =
    some 0x7400000000000000#64 := by decide +kernel

/-! ### Witnesses -/

/-- The accept step of trace T1, and what its seventeen steps leave (95_test_vectors.md P1 line 2). -/
abbrev t1 : State := keyed 0x0E329232EA6D0D73#64 64#7 0x2000#16 0x8787878787878787#64 64#7

abbrev t1Done : State :=
  { State.reset with key := 0x0E329232EA6D0D73#64, klen := 64#7, olen := 64#7, st := 0b0100#4 }

theorem t1_run : Host.Core.run Sys2Proof.core 17 t1 = .next t1Done := next_of_some (by decide +kernel)

theorem accepts_of {s : State} (h : (!s.ports.rst && s.ph == .idle && s.ports.cmdValid) = true) : Accepts s := by
  obtain ⟨h1, h2⟩ : s.ports.rst = false ∧ s.ph = .idle := by
    simp only [Bool.and_eq_true, Bool.not_eq_true', beq_iff_eq] at h; exact ⟨h.1.1, h.1.2⟩
  simp only [Bool.and_eq_true] at h
  exact ⟨h1, h2, h.2⟩

theorem noReset_of {n : Nat} {s : State} (h : ∀ k < n, (s.inputs.getD k Ports.quiet).rst = false) : NoReset n s := h

/-- The invariants of a machine in mid-run. -/
theorem running_inv {klen : Len} {l r : BitVec 32} {rnd : BitVec 5} (hk : klen.toNat = 64) (h : 1 ≤ rnd.toNat ∧ rnd.toNat ≤ 16) :
    StateInv (running klen l r rnd) where
  olen_le := by simp [running, State.reset]
  dout_clear := by simp [running, State.reset]
  key_clear := by
    intro i hi hle
    have : min klen.toNat 64 ≤ i := hle
    omega
  busy_iff_run := by simp [running, State.busy]
  run_iff_round := ⟨fun _ => h, fun _ => rfl⟩
  done_not_busy := by simp [running, State.done]
  fault_no_result := by simp [running, State.reset]
  success_no_record := by simp [running, State.reset]
  idle_clear := by simp [running]

theorem reset_inv (q : List Ports) : StateInv { State.reset with inputs := q } where
  olen_le := by simp [State.reset]
  dout_clear := by simp [State.reset]
  key_clear := by simp [State.reset]
  busy_iff_run := by simp [State.reset, State.busy]
  run_iff_round := by simp [State.reset]
  done_not_busy := by simp [State.reset, State.done]
  fault_no_result := by simp [State.reset]
  success_no_record := by simp [State.reset]
  idle_clear := by simp [State.reset]

theorem witness_ResetStepClearsEveryRegister :
    ({ running 64#7 1#32 2#32 9#5 with inputs := [⟨true, true, 0x1000#16, 0#64, 0#7⟩] } : State).ports.rst = true := by decide

theorem witness_IdleStepKeepsEverything :
    State.reset.ports.rst = false ∧ State.reset.ph = .idle ∧ State.reset.ports.cmdValid = false := by decide

theorem witness_AcceptStepRunsTheDecodedCommand : Accepts t1 ∧ decode t1.ports.cmd = .ok .enc :=
  ⟨accepts_of (by decide), by decide⟩

/-- One word for each condition of 30_encoding.md R73, at its boundary. -/
theorem witness_IllegalWordRaisesIllegalCommand :
    Accepts (presents 0x0000#16 0#64 0#7) ∧ ∀ w ∈ [0x0000#16, 0x8000#16, 0x1040#16, 0x2001#16, 0x3080#16, 0x4100#16, 0x5F00#16,
      0x6600#16, 0x6080#16, 0x6001#16, 0x7700#16, 0x7080#16, 0x7230#16, 0x7320#16, 0x7438#16, 0x7530#16], IllegalWord w :=
  ⟨accepts_of (by decide), by
    intro w hw
    simp only [List.mem_cons, List.not_mem_nil, or_false] at hw
    rcases hw with rfl | rfl | rfl | rfl | rfl | rfl | rfl | rfl | rfl | rfl | rfl | rfl | rfl | rfl | rfl | rfl <;>
      simp [IllegalWord, entriesOfCode]⟩

theorem witness_BusyEngineIgnoresThePorts :
    (running 64#7 1#32 2#32 16#5).ph = .run ∧ (⟨false, true, 0x1000#16, 0#64, 0#7⟩ : Ports).rst = false ∧
      Ports.quiet.rst = false := by decide

theorem witness_OutputsMirrorTheStatus : StateInv (running 64#7 1#32 2#32 16#5) ∧ StateInv { State.reset with inputs := [] } :=
  ⟨running_inv (by decide) (by decide), reset_inv []⟩

theorem witness_WordsCarryTheirOperands :
    (63#6 : Idx).toNat < entriesOfCode 0 ∧ (47#6 : Idx).toNat < entriesOfCode 2 ∧ (31#6 : Idx).toNat < entriesOfCode 3 ∧
      (55#6 : Idx).toNat < entriesOfCode 4 ∧ (47#6 : Idx).toNat < entriesOfCode 5 ∧ (63#6 : Idx).toNat < entriesOfCode 15 := by
  decide

theorem witness_DecodeOfEncodeIsTheCommand : (Instr.trdPc1 55#6).wf = true := by decide

theorem witness_EncodeOfDecodeIsTheWord : decode 0x40BF#16 = .ok (.drk .reverse 63#6) := by decide

theorem witness_ShfAppliesAPositionTable :
    (presents 0x6500#16 0#64 55#7).ports.dlen.toNat < 56 ∧ 56 ≤ (presents 0x6500#16 0#64 56#7).ports.dlen.toNat ∧
      (presents 0x6400#16 0#64 63#7).ports.dlen.toNat < 64 ∧ 64 ≤ (presents 0x6400#16 0#64 127#7).ports.dlen.toNat ∧
      (presents 0x6200#16 0#64 31#7).ports.dlen.toNat < 32 ∧ 32 ≤ (presents 0x6200#16 0#64 32#7).ports.dlen.toNat := by decide

theorem witness_ShfAppliesAnSBox :
    (presents 0x6800#16 0#64 5#7).ports.dlen ≠ 6#7 ∧ (presents 0x6800#16 0#64 7#7).ports.dlen ≠ 6#7 ∧
      (presents 0x6800#16 0#64 6#7).ports.dlen = 6#7 := by decide

theorem witness_TrdReadsAnEntry :
    (63#6 : Idx).toNat < 64 ∧ (47#6 : Idx).toNat < 48 ∧ (31#6 : Idx).toNat < 32 ∧ (55#6 : Idx).toNat < 56 := by decide

theorem witness_TrdPastTheTableIsIllegal :
    48 ≤ (48#6 : Idx).toNat ∧ 32 ≤ (32#6 : Idx).toNat ∧ 56 ≤ (56#6 : Idx).toNat ∧ 56 ≤ (63#6 : Idx).toNat := by decide

theorem witness_IpInverseUndoesIp :
    64 ≤ (presents 0x6000#16 1#64 64#7).ports.dlen.toNat ∧
    (∃ t, exec .shfIp (presents 0x6000#16 1#64 64#7) = .next t ∧ 64 ≤ (presents 0x6100#16 t.dout 127#7).ports.dlen.toNat ∧
      (presents 0x6100#16 t.dout 127#7).ports.din = t.dout) ∧
    ∃ t, exec .shfIpInverse (presents 0x6100#16 1#64 64#7) = .next t ∧
      64 ≤ (presents 0x6000#16 t.dout 64#7).ports.dlen.toNat ∧ (presents 0x6000#16 t.dout 64#7).ports.din = t.dout :=
  ⟨by decide, ⟨_, rfl, (by decide : 64 ≤ (127#7 : Len).toNat), rfl⟩, _, rfl, (by decide : 64 ≤ (64#7 : Len).toNat), rfl⟩

theorem witness_ReverseRotationIsARightRotation : 1 ≤ 1 ∧ 1 ≤ 16 ∧ 16 ≤ 16 := by decide

theorem witness_DrkDeliversTheRoundKey :
    (keyed 0#64 63#7 0x4001#16 0#64 0#7).klen.toNat < 64 ∧ 64 ≤ (keyed 0#64 64#7 0x4001#16 0#64 0#7).klen.toNat ∧
      ((0#6 : Idx).toNat = 0 ∨ 17 ≤ (0#6 : Idx).toNat) ∧ ((17#6 : Idx).toNat = 0 ∨ 17 ≤ (17#6 : Idx).toNat) ∧
      1 ≤ (1#6 : Idx).toNat ∧ (1#6 : Idx).toNat ≤ 16 ∧ 1 ≤ (16#6 : Idx).toNat ∧ (16#6 : Idx).toNat ≤ 16 := by decide

theorem witness_KeyScheduleIsSymmetric :
    64 ≤ (keyed 0#64 127#7 0x4001#16 0#64 0#7).klen.toNat ∧ 1 ≤ (16#6 : Idx).toNat ∧ (16#6 : Idx).toNat ≤ 16 := by decide

/-- The two keys of 95_test_vectors.md Q7. -/
theorem witness_ParityBitsInfluenceNothing :
    Instr.drk .forward 1#6 ≠ .ldk ∧
    (∀ p < 64, (p + 1) % 8 ≠ 0 → (0x0F339333EB6C0C72#64).getMsbD p = t1.key.getMsbD p) ∧
    ∃ t, execCommand (.drk .forward 1#6) t1 = .next t :=
  ⟨by decide, by decide +kernel, _, rfl⟩

theorem witness_DeclaredKeyLengthBeyond64InfluencesNothing :
    Instr.drk .reverse 16#6 ≠ .ldk ∧ 64 ≤ t1.klen.toNat ∧ 64 ≤ (127#7 : Len).toNat ∧
      ∃ t, execCommand (.drk .reverse 16#6) t1 = .next t :=
  ⟨by decide, by decide, by decide, _, rfl⟩

/-- A reset step and an `LDK` that change the key. -/
theorem witness_OnlyLdkAndResetChangeTheKey :
    (∃ t, step { t1 with inputs := [⟨true, false, 0#16, 0#64, 0#7⟩] } = .next t ∧ (decide (t.klen ≠ t1.klen)) = true) ∧
      ∃ t, step (presents 0x1000#16 0x0E329232EA6D0D73#64 64#7) = .next t ∧ (decide (t.key ≠ 0#64)) = true :=
  ⟨next_of_any (p := fun t => decide (t.klen ≠ t1.klen)) (by decide +kernel),
    next_of_any (p := fun t => decide (t.key ≠ 0#64)) (by decide +kernel)⟩

theorem witness_TableCommandsShowNothingOfTheKey :
    (∃ tbl, Instr.shfIp = .shf tbl) ∧ (∃ tbl k, Instr.trdS8 63#6 = .trd tbl k) ∧ (∃ t, exec .shfIp t1 = .next t) ∧
      ∃ t, exec (.trdS8 63#6) t1 = .next t :=
  ⟨⟨.pos .ip, rfl⟩, ⟨.box .s8, 63#6, rfl⟩, ⟨_, rfl⟩, _, rfl⟩

theorem witness_RoundFunctionByBits : 0 < 32 ∧ 31 < 32 := by decide

theorem witness_FrdRunsOneRound :
    (keyed 0#64 64#7 0x5001#16 0#64 63#7).ports.dlen ≠ 64#7 ∧ t1.ports.dlen = 64#7 ∧
      (keyed 0#64 63#7 0x5001#16 0#64 64#7).klen.toNat < 64 ∧ 64 ≤ t1.klen.toNat ∧
      ((0#6 : Idx).toNat = 0 ∨ 17 ≤ (0#6 : Idx).toNat) ∧ ((17#6 : Idx).toNat = 0 ∨ 17 ≤ (17#6 : Idx).toNat) ∧
      1 ≤ (1#6 : Idx).toNat ∧ (16#6 : Idx).toNat ≤ 16 ∧
      IsRoundKey t1.key (16#6 : Idx).toNat .forward (roundKey (perm 56 .pc1 t1.key) (rot (16#6 : Idx).toNat .forward)) :=
  ⟨by decide, by decide, by decide, by decide, by decide, by decide, by decide, by decide, isRoundKey_roundKey _ _ _⟩

theorem witness_OneRoundUndoesItself :
    t1.ports.dlen = 64#7 ∧ 64 ≤ t1.klen.toNat ∧ 1 ≤ (1#6 : Idx).toNat ∧ (1#6 : Idx).toNat ≤ 16 ∧
    ∃ t, exec (.frd .forward 1#6) t1 = .next t ∧
      (keyed 0x0E329232EA6D0D73#64 64#7 0x5001#16 (swapHalves t.dout) 64#7).key = t1.key ∧
      (keyed 0x0E329232EA6D0D73#64 64#7 0x5001#16 (swapHalves t.dout) 64#7).klen = t1.klen ∧
      (keyed 0x0E329232EA6D0D73#64 64#7 0x5001#16 (swapHalves t.dout) 64#7).ports.din = swapHalves t.dout :=
  ⟨by decide, by decide, by decide, by decide, _, rfl, rfl, rfl, rfl⟩

theorem witness_EncAndDecStartARun :
    (presents 0x2000#16 0#64 63#7).ports.dlen ≠ 64#7 ∧ (presents 0x2000#16 0#64 64#7).ports.dlen = 64#7 := by decide

/-- Round 1 with a short key, rounds 1 and 15 and round 16 with a usable one. -/
theorem witness_RoundStepRunsOneRound :
    (running 63#7 1#32 2#32 1#5).ports.rst = false ∧ (running 63#7 1#32 2#32 1#5).ph = .run ∧
      (running 63#7 1#32 2#32 1#5).klen.toNat < 64 ∧ KeyChecked (running 63#7 1#32 2#32 1#5) ∧
      64 ≤ (running 64#7 1#32 2#32 15#5).klen.toNat ∧ (running 64#7 1#32 2#32 15#5).rnd.toNat < 16 ∧
      (running 64#7 1#32 2#32 16#5).rnd.toNat = 16 ∧
      IsRoundKey (running 64#7 1#32 2#32 16#5).key 16 .forward
        (roundKey (perm 56 .pc1 (running 64#7 1#32 2#32 16#5).key) (rot 16 .forward)) :=
  ⟨by decide, by decide, by decide, fun _ h => absurd h (by decide), by decide, by decide, by decide,
    isRoundKey_roundKey _ _ _⟩

theorem witness_SequencerWalksItsRounds :
    StateInv (running 64#7 1#32 2#32 16#5) ∧ KeyChecked (running 64#7 1#32 2#32 16#5) ∧
      (running 64#7 1#32 2#32 16#5).ports.rst = false ∧ (running 64#7 1#32 2#32 16#5).ph = .run ∧
      ∃ t, step (running 64#7 1#32 2#32 16#5) = .next t ∧ true = true :=
  ⟨running_inv (by decide) (by decide), fun _ _ => by decide, by decide, by decide,
    next_of_any (p := fun _ => true) (by decide +kernel)⟩

theorem witness_RunningKeepsThePreviousResult : ∃ t, step t1 = .next t ∧ decide (t.ph = .run) = true :=
  next_of_any (p := fun t => decide (t.ph = .run)) (by decide +kernel)

theorem witness_FaultKeepsTheKeyAndDeliversNothing :
    ∃ t, exec (.drk .forward 0#6) t1 = .next t ∧ (decide (t.busy = false ∧ t.errk ≠ 0#2)) = true :=
  next_of_any (p := fun t => decide (t.busy = false ∧ t.errk ≠ 0#2)) (by decide +kernel)

/-- A whole `ENC`, a whole one-step command, and an `ENC` that faults in its second step. -/
theorem witness_StepsReachTheCommandLevel :
    (Accepts t1 ∧ decode t1.ports.cmd = .ok .enc ∧ (∃ u, execCommand .enc t1 = .next u) ∧
      latency t1.ports.cmd t1.ports.dlen t1.klen = 17 ∧ NoReset 17 t1) ∧
    (Accepts (presents 0x6000#16 1#64 64#7) ∧ decode (presents 0x6000#16 1#64 64#7).ports.cmd = .ok .shfIp ∧
      (∃ u, execCommand .shfIp (presents 0x6000#16 1#64 64#7) = .next u) ∧ latency 0x6000#16 64#7 0#7 = 1 ∧
      NoReset 1 (presents 0x6000#16 1#64 64#7)) ∧
    latency 0x3000#16 64#7 63#7 = 2 ∧ NoReset 2 (presents 0x3000#16 0#64 64#7) :=
  ⟨⟨accepts_of (by decide), by decide, ⟨_, rfl⟩, by decide, noReset_of (by decide)⟩,
    ⟨accepts_of (by decide), by decide, ⟨_, rfl⟩, by decide, noReset_of (by decide)⟩, by decide, noReset_of (by decide)⟩

/-- The halves of a run of `ENC` on the block of `t1`, after each round. -/
def halvesAfter : Nat → Halves
  | 0 => splitBlock (perm 64 .ip t1.ports.din)
  | n + 1 => Machine.round (halvesAfter n) (roundKey (perm 56 .pc1 t1.key) (rot (n + 1) .forward))

theorem witness_EncAndDecAreSixteenRounds :
    Accepts t1 ∧ t1.ports.cmd = (if Direction.forward = .forward then 0x2000#16 else 0x3000#16) ∧ t1.ports.dlen = 64#7 ∧
    64 ≤ t1.klen.toNat ∧ NoReset 17 t1 ∧
    (∀ n, 1 ≤ n → n ≤ 16 → IsRoundKey t1.key n .forward (roundKey (perm 56 .pc1 t1.key) (rot n .forward))) ∧
    (∀ i < 32, (halvesAfter 0).left.getMsbD i = t1.ports.din.getMsbD ((prom .ip).getD i 0 - 1) ∧
      (halvesAfter 0).right.getMsbD i = t1.ports.din.getMsbD ((prom .ip).getD (32 + i) 0 - 1)) ∧
    ∀ n < 16, (halvesAfter (n + 1)).left = (halvesAfter n).right ∧ (halvesAfter (n + 1)).right =
      (halvesAfter n).left ^^^ feistel (halvesAfter n).right (roundKey (perm 56 .pc1 t1.key) (rot (n + 1) .forward)) :=
  ⟨accepts_of (by decide), by decide, by decide, by decide, noReset_of (by decide), fun n _ _ => isRoundKey_roundKey _ n _,
    by decide +kernel, fun _ _ => ⟨rfl, rfl⟩⟩

theorem witness_DecUndoesEncAndEncUndoesDec :
    Accepts t1 ∧ Accepts (keyed t1.key t1.klen 0x3000#16 0#64 64#7) ∧ t1.ports.cmd = 0x2000#16 ∧
      t1.ports.dlen = 64#7 ∧ 64 ≤ t1.klen.toNat ∧ NoReset 17 t1 ∧ NoReset 17 (keyed t1.key t1.klen 0x3000#16 0#64 64#7) ∧
      Host.Core.run Sys2Proof.core 17 t1 = .next t1Done ∧
      (keyed t1.key t1.klen 0x3000#16 0#64 64#7).ports.din = t1Done.dout :=
  ⟨accepts_of (by decide), accepts_of (by decide), by decide, by decide, by decide, noReset_of (by decide),
    noReset_of (by decide), t1_run, rfl⟩

/-- What sixteen `FRD` return one after the other, from `IP` of the block of `t1`. -/
def frdAfter (n : Nat) : Bus := (halvesAfter n).left ++ (halvesAfter n).right

theorem witness_SixteenFrdAreTheWholeCommand :
    t1.ports.dlen = 64#7 ∧ 64 ≤ t1.klen.toNat ∧
    (∀ i < 64, (frdAfter 0).getMsbD i = t1.ports.din.getMsbD ((prom .ip).getD i 0 - 1)) ∧
    ∀ n < 16, ∀ u : State, u.key = t1.key → u.klen = t1.klen → u.ports.din = frdAfter n → u.ports.dlen = 64#7 →
      ∃ t, exec (.frd .forward (BitVec.ofNat 6 (n + 1))) u = .next t ∧ t.dout = frdAfter (n + 1) := by
  refine ⟨by decide, by decide, by decide +kernel, fun n hn u hk hl hd h64 => ⟨_, exec_frd _ _ _, ?_⟩⟩
  have hr : (BitVec.ofNat 6 (n + 1)).toNat = n + 1 := by simp; omega
  have hs : splitBlock (frdAfter n) = halvesAfter n := by rw [frdAfter, splitBlock_join]
  rw [frdValue, if_neg (by rw [State.operandLen, h64]; simp), rk_ok _ (by rw [hl]; decide) (by omega) (by omega),
    operand_of_le (by rw [h64]; decide), hd, hs, hk, hr]
  exact bus_block _

theorem witness_ComplementationProperty :
    Accepts t1 ∧ Accepts (keyed (~~~t1.key) 64#7 0x2000#16 (~~~t1.ports.din) 64#7) ∧ t1.ports.cmd = 0x2000#16 ∧
      t1.ports.dlen = 64#7 ∧ 64 ≤ t1.klen.toNat ∧ NoReset 17 t1 ∧
      NoReset 17 (keyed (~~~t1.key) 64#7 0x2000#16 (~~~t1.ports.din) 64#7) ∧
      Host.Core.run Sys2Proof.core 17 t1 = .next t1Done :=
  ⟨accepts_of (by decide), accepts_of (by decide), by decide, by decide, by decide, noReset_of (by decide),
    noReset_of (by decide), t1_run⟩

/-- The four rows of the table of 70_reset_and_hazards.md R259. -/
theorem witness_EveryCommandCompletesInItsSteps :
    (Accepts (presents 0x0000#16 0#64 0#7) ∧ NoReset 1 (presents 0x0000#16 0#64 0#7)) ∧
    (Accepts (presents 0x3000#16 0#64 63#7) ∧ (presents 0x3000#16 0#64 63#7).ports.dlen ≠ 64#7 ∧
      NoReset 1 (presents 0x3000#16 0#64 63#7)) ∧
    (Accepts (keyed 0#64 63#7 0x2000#16 0#64 64#7) ∧ (keyed 0#64 63#7 0x2000#16 0#64 64#7).klen.toNat < 64 ∧
      NoReset 2 (keyed 0#64 63#7 0x2000#16 0#64 64#7)) ∧
    Accepts t1 ∧ ¬ t1.klen.toNat < 64 ∧ NoReset 17 t1 :=
  ⟨⟨accepts_of (by decide), noReset_of (by decide)⟩, ⟨accepts_of (by decide), by decide, noReset_of (by decide)⟩,
    ⟨accepts_of (by decide), by decide, noReset_of (by decide)⟩, accepts_of (by decide), by decide, noReset_of (by decide)⟩

/-- The same `ENC` from a machine that holds an earlier fault record. -/
theorem witness_OutcomeDependsOnWordOperandAndKeyOnly :
    Accepts t1 ∧ Accepts { t1 with st := 0b0110#4, got := 17#7, ecmd := 0x4011#16 } ∧
      17 = latency t1.ports.cmd t1.ports.dlen t1.klen ∧ NoReset 17 t1 ∧
      NoReset 17 { t1 with st := 0b0110#4, got := 17#7, ecmd := 0x4011#16 } :=
  ⟨accepts_of (by decide), accepts_of (by decide), by decide, noReset_of (by decide), noReset_of (by decide)⟩

theorem witness_EveryStepKeepsTheInvariants :
    StateInv (running 64#7 1#32 2#32 1#5) ∧ (∃ t, step (running 64#7 1#32 2#32 1#5) = .next t ∧ true = true) ∧
      Host.Core.run Sys2Proof.core 17 t1 = .next t1Done :=
  ⟨running_inv (by decide) (by decide), next_of_any (p := fun _ => true) (by decide +kernel), t1_run⟩

theorem witness_EveryStepKeepsOlenLegal :
    LegalOlen t1Done ∧ ∃ t, step t1Done = .next t ∧ true = true :=
  ⟨by unfold LegalOlen; decide, next_of_any (p := fun _ => true) (by decide +kernel)⟩

theorem witness_EveryStepKeepsTheKeyChecked :
    KeyChecked (running 64#7 1#32 2#32 2#5) ∧ ∃ t, step (running 64#7 1#32 2#32 2#5) = .next t ∧ decide (t.ph = .run) = true :=
  ⟨fun _ _ => by decide, next_of_any (p := fun t => decide (t.ph = .run)) (by decide +kernel)⟩

end Sys2Proof.Tests
end

/-! O6: the machine is total. The two lemmas read it off `exec_cases` and `step_cases`. -/

namespace Sys2Proof.Machine

/-- Every shape of command answers a next state (00_scope.md R16). -/
theorem exec_answers_next (i : Instr) (s : State) : ∃ t, exec i s = .next t := by
  rcases exec_cases i s with ⟨_, hLoad⟩ | ⟨_, _, hAccept⟩ | ⟨_, _, _, _, hSettle⟩
  · exact ⟨_, hLoad⟩
  · exact ⟨_, hAccept⟩
  · exact ⟨_, hSettle⟩

/-- Every case of a step (10_state.md R30) answers a next state; the accept step answers what its command does. -/
theorem step_answers_next (s : State) : ∃ t, step s = .next t := by
  rcases step_cases s with ⟨_, hReset⟩ | ⟨_, _, _, hIdle⟩ | ⟨_, _, hIllegal⟩ | ⟨i, _, _, hCommand⟩ | ⟨_, _, hRound⟩
  · exact ⟨_, hReset⟩
  · exact ⟨_, hIdle⟩
  · exact ⟨_, hIllegal⟩
  · obtain ⟨t, ht⟩ := exec_answers_next i s
    exact ⟨advance t, by rw [hCommand, ht, advanceOutcome]⟩
  · exact ⟨_, hRound⟩

/-- Settles O6, from the cases of `exec` and of `step`. -/
theorem everyCommandAndStepAnswersNext : Obligations.EveryCommandAndStepAnswersNext :=
  ⟨exec_answers_next, step_answers_next⟩

end Sys2Proof.Machine

/-! What a step does to the state, said once with everything the invariants need of it: `StepEffect`, one constructor per
kind of step (10_state.md R30). O29, O46 and O48 are case splits over it. -/

namespace Sys2Proof.Machine

/-! ### The width of a result -/

/-- The widths of the results that commands deliver (10_state.md R33, number 4). -/
def resultWidths : List Nat := [4, 7, 32, 48, 56, 64]

/-- A success of `x` delivers a sequence of one of the widths of R33. -/
def DeliversWidth (x : Except Raise Result) : Prop :=
  ∀ res, x = .ok res → ∃ n ∈ resultWidths, ∃ v : BitVec n, res = Result.of v

theorem deliversWidth_error (k : Raise) : DeliversWidth (.error k) := by
  intro res h; cases h

theorem deliversWidth_ok {n : Nat} (hn : n ∈ resultWidths) (v : BitVec n) : DeliversWidth (.ok (Result.of v)) := by
  intro res h; cases h; exact ⟨n, hn, v, rfl⟩

theorem nOut_mem_resultWidths (t : PosTable) : nOut t ∈ resultWidths := by cases t <;> decide

theorem rkValue_deliversWidth (key : Bus) (klen : Len) (r : Nat) (d : Direction) :
    DeliversWidth ((rk key klen r d).map Result.of) := by
  cases rk key klen r d with
  | error k => exact deliversWidth_error k
  | ok v => exact deliversWidth_ok (by decide) v

theorem frdValue_deliversWidth (d : Direction) (r : Idx) (s : State) : DeliversWidth (frdValue d r s) := by
  unfold frdValue
  split
  · exact deliversWidth_error _
  · split
    · exact deliversWidth_error _
    · exact deliversWidth_ok (by decide) _

theorem shfPos_deliversWidth (t : PosTable) (s : State) : DeliversWidth (shfPos t s) := by
  unfold shfPos
  split
  · exact deliversWidth_error _
  · exact deliversWidth_ok (nOut_mem_resultWidths t) _

theorem shfBox_deliversWidth (b : SBox) (s : State) : DeliversWidth (shfBox b s) := by
  unfold shfBox
  split
  · exact deliversWidth_error _
  · exact deliversWidth_ok (by decide) _

theorem shfValue_deliversWidth (t : Table) (s : State) : DeliversWidth (shfValue t s) := by
  cases t with
  | pos t => exact shfPos_deliversWidth t s
  | box b => exact shfBox_deliversWidth b s

theorem trdPos_deliversWidth (t : PosTable) (k : Idx) : DeliversWidth (trdPos t k) := by
  unfold trdPos
  split
  · exact deliversWidth_ok (n := 7) (by decide) _
  · exact deliversWidth_error _

theorem trdBox_deliversWidth (b : SBox) (k : Idx) : DeliversWidth (trdBox b k) :=
  deliversWidth_ok (n := 4) (by decide) _

theorem trdValue_deliversWidth (t : Table) (k : Idx) : DeliversWidth (trdValue t k) := by
  cases t with
  | pos t => exact trdPos_deliversWidth t k
  | box b => exact trdBox_deliversWidth b k

/-! ### The effect of a step -/

/-- `u` is what the engine makes of `s` in one step, before the next port sample is in force (10_state.md R30). -/
inductive StepEffect (s : State) : State → Prop
  | reset (hrst : s.ports.rst = true) : StepEffect s (resetStep s)
  | stay : StepEffect s s
  | loadKey (hacc : Accepts s) (hcmd : decode s.ports.cmd = .ok .ldk) :
      StepEffect s (complete { s with key := s.operand, klen := s.operandLen } Result.none)
  | start (hacc : Accepts s) (d : Direction) : StepEffect s (startRun d s)
  | deliver {n : Nat} (hn : n ∈ resultWidths) (v : BitVec n) : StepEffect s (complete s (Result.of v))
  | fault (k : Raise) (w : Word) : StepEffect s (raise s k w)
  | nextRound (hrun : s.ph = .run) (hkey : 64 ≤ s.klen.toNat) (hfirst : 1 ≤ s.rnd.toNat) (hlast : s.rnd.toNat < 16)
      (h : Halves) : StepEffect s { s with l := h.left, r := h.right, rnd := s.rnd + 1#5 }

theorem settle_effect (s : State) (w : Word) {x : Except Raise Result} (hx : DeliversWidth x) :
    StepEffect s (settle s w x) := by
  cases x with
  | error k => exact .fault k w
  | ok res =>
    obtain ⟨n, hn, v, rfl⟩ := hx res rfl
    exact .deliver hn v

theorem acceptCrypt_effect {s : State} (hacc : Accepts s) (d : Direction) : StepEffect s (acceptCrypt d s) := by
  rcases acceptCrypt_cases d s with ⟨_, h⟩ | ⟨_, h⟩
  · rw [h]; exact .fault _ _
  · rw [h]; exact .start hacc d

/-- An accept step of a legal word, by the shape of its command (30_encoding.md R74). -/
theorem exec_effect {s : State} {i : Instr} (hacc : Accepts s) (hcmd : decode s.ports.cmd = .ok i) :
    ∃ u, exec i s = .next u ∧ StepEffect s u := by
  rcases instr_shape i with rfl | rfl | rfl | ⟨d, r, rfl⟩ | ⟨d, r, rfl⟩ | ⟨t, rfl⟩ | ⟨t, k, rfl⟩
  · exact ⟨_, exec_ldk s, .loadKey hacc hcmd⟩
  · exact ⟨_, exec_enc s, acceptCrypt_effect hacc .forward⟩
  · exact ⟨_, exec_dec s, acceptCrypt_effect hacc .reverse⟩
  · exact ⟨_, exec_drk d r s, settle_effect s _ (rkValue_deliversWidth s.key s.klen r.toNat d)⟩
  · exact ⟨_, exec_frd d r s, settle_effect s _ (frdValue_deliversWidth d r s)⟩
  · exact ⟨_, exec_shf t s, settle_effect s _ (shfValue_deliversWidth t s)⟩
  · exact ⟨_, exec_trd t k s, settle_effect s _ (trdValue_deliversWidth t k)⟩

theorem roundStep_effect {s : State} (hrun : s.ph = .run) : StepEffect s (roundStep s) := by
  rcases roundStep_cases s with ⟨_, h⟩ | ⟨_, _, h⟩ | ⟨hkey, hfirst, hlast, halves, _, h⟩ | ⟨_, _, h⟩
  · rw [h]; exact .fault _ _
  · rw [h]; exact .fault _ _
  · rw [h]; exact .nextRound hrun hkey hfirst hlast halves
  · rw [h]; exact .deliver (by decide) _

/-- Every step has one of the effects, and then the next port sample is in force. -/
theorem step_has_effect (s : State) : ∃ u, StepEffect s u ∧ step s = .next (advance u) := by
  rcases step_cases s with ⟨hrst, h⟩ | ⟨_, _, _, h⟩ | ⟨_, _, h⟩ | ⟨i, hacc, hcmd, h⟩ | ⟨_, hrun, h⟩
  · exact ⟨_, .reset hrst, h⟩
  · exact ⟨_, .stay, h⟩
  · exact ⟨_, .fault .illegalCommand s.ports.cmd, h⟩
  · obtain ⟨u, hu, heff⟩ := exec_effect hacc hcmd
    exact ⟨u, heff, by rw [h, hu, advanceOutcome]⟩
  · exact ⟨_, roundStep_effect hrun, h⟩

theorem effect_of_step {s t : State} (h : step s = .next t) : ∃ u, StepEffect s u ∧ t = advance u := by
  obtain ⟨u, heff, hu⟩ := step_has_effect s
  rw [hu] at h
  injection h with h
  exact ⟨u, heff, h.symm⟩

end Sys2Proof.Machine

/-! O46, O47: the invariants of 10_state.md R37. An idle engine meets them when its key, result and fault record do; that
covers reset and every completion, which leaves the start of a run and a round step. -/

namespace Sys2Proof.Machine

/-- `KEY` is zero below `min(KLEN, 64)` (10_state.md R23). -/
def KeyClear (key : Bus) (klen : Len) : Prop := ∀ i < 64, min klen.toNat 64 ≤ i → key.getMsbD i = false

/-- A result fits `DOUT` and is zero below its length (10_state.md R24). -/
def Result.Clear (res : Result) : Prop := res.len.toNat ≤ 64 ∧ ∀ i < 64, res.len.toNat ≤ i → res.bits.getMsbD i = false

theorem keyClear_carried (b : Bus) (n : Len) : KeyClear (carried b n) n := by
  intro i _ hi
  have hout : ¬ i < min n.toNat 64 := by omega
  simp only [getMsbD_carried, hout, decide_false, Bool.false_and]

theorem result_none_clear : Result.none.Clear := by simp [Result.Clear, Result.none]

theorem result_of_clear {n : Nat} (hn : n ∈ resultWidths) (v : BitVec n) : (Result.of v).Clear := by
  have hwidth : ∀ n ∈ resultWidths, (BitVec.ofNat 7 n).toNat = n ∧ n ≤ 64 := by decide
  obtain ⟨hlen, hle⟩ := hwidth n hn
  simp only [Result.Clear, Result.of, hlen]
  exact ⟨hle, fun i _ hi => by rw [getMsbD_bus, getMsbD_of_le v hi, Bool.and_false]⟩

/-- A completion meets the invariants when it records a fault exactly with no result. -/
theorem stateInv_finish {s : State} {res : Result} {k : BitVec 2} {e g : Len} {w : Word}
    (hkey : KeyClear s.key s.klen) (hres : res.Clear) (hfault : k ≠ 0#2 → res = Result.none)
    (hsuccess : k = 0#2 → e = 0#7 ∧ g = 0#7 ∧ w = 0#16) : StateInv (finish s res k e g w) := by
  have hbusy : (finish s res k e g w).busy = false := busy_of_st (finish_st ..)
  have herrk : (finish s res k e g w).errk = k := errk_of_st (finish_st ..)
  exact {
    olen_le := hres.1
    dout_clear := hres.2
    key_clear := hkey
    busy_iff_run := by simp [hbusy]
    run_iff_round := by simp
    done_not_busy := fun _ => hbusy
    fault_no_result := fun h => by simp [hfault (herrk ▸ h), Result.none]
    success_no_record := fun h => hsuccess (herrk ▸ h)
    idle_clear := fun _ => ⟨rfl, rfl, rfl, rfl⟩ }

theorem stateInv_complete {s : State} {res : Result} (hkey : KeyClear s.key s.klen) (hres : res.Clear) :
    StateInv (complete s res) :=
  stateInv_finish hkey hres (fun h => absurd rfl h) (fun _ => ⟨rfl, rfl, rfl⟩)

theorem errk_ne_zero (k : Raise) : k.errk ≠ 0#2 := by cases k <;> simp [Raise.errk]

theorem stateInv_raise {s : State} (k : Raise) (w : Word) (hkey : KeyClear s.key s.klen) : StateInv (raise s k w) :=
  stateInv_finish hkey result_none_clear (fun _ => rfl) (fun h => absurd h (errk_ne_zero k))

/-- No invariant reads what the host drives. -/
theorem StateInv.of_inputs {s : State} (h : StateInv s) (q : List Ports) : StateInv { s with inputs := q } :=
  { h with }

theorem stateInv_reset (q : List Ports) : StateInv { State.reset with inputs := q } where
  olen_le := Nat.zero_le 64
  dout_clear := by simp [State.reset]
  key_clear := by simp [State.reset]
  busy_iff_run := by simp [State.reset, State.busy]
  run_iff_round := by simp [State.reset]
  done_not_busy := by simp [State.reset, State.done]
  fault_no_result := fun _ => ⟨rfl, rfl⟩
  success_no_record := fun _ => ⟨rfl, rfl, rfl⟩
  idle_clear := fun _ => ⟨rfl, rfl, rfl, rfl⟩

theorem stateInv_startRun {s : State} (d : Direction) (h : StateInv s) : StateInv (startRun d s) := by
  have hbusy : (startRun d s).busy = true := busy_of_st (startRun_st ..)
  have hdone : (startRun d s).done = false := done_of_st (startRun_st ..)
  have herrk : (startRun d s).errk = s.errk := errk_of_st (startRun_st ..)
  exact { h with
    busy_iff_run := by simp [hbusy]
    run_iff_round := by simp
    done_not_busy := by simp [hdone]
    fault_no_result := fun he => h.fault_no_result (herrk ▸ he)
    success_no_record := fun he => h.success_no_record (herrk ▸ he)
    idle_clear := by simp }

theorem stateInv_nextRound {s : State} (hrun : s.ph = .run) (hlast : s.rnd.toNat < 16) (l r : BitVec 32)
    (h : StateInv s) : StateInv { s with l := l, r := r, rnd := s.rnd + 1#5 } := by
  have hnext : (s.rnd + 1#5).toNat = s.rnd.toNat + 1 := by
    rw [BitVec.toNat_add]; exact Nat.mod_eq_of_lt (by simp; omega)
  exact { h with
    run_iff_round := by simp only [hrun, hnext, true_iff]; omega
    idle_clear := by simp [hrun] }

theorem StepEffect.stateInv {s u : State} (e : StepEffect s u) (h : StateInv s) : StateInv u := by
  cases e with
  | reset => exact stateInv_reset s.inputs
  | stay => exact h
  | loadKey => exact stateInv_complete (keyClear_carried _ _) result_none_clear
  | start _ d => exact stateInv_startRun d h
  | deliver hn v => exact stateInv_complete h.key_clear (result_of_clear hn v)
  | fault k w => exact stateInv_raise k w h.key_clear
  | nextRound hrun _ _ hlast halves => exact stateInv_nextRound hrun hlast halves.left halves.right h

theorem step_keeps_stateInv {s t : State} (h : StateInv s) (hstep : step s = .next t) : StateInv t := by
  obtain ⟨u, e, rfl⟩ := effect_of_step hstep
  exact (e.stateInv h).of_inputs _

/-- What every step keeps holds at the end of every run. -/
theorem run_keeps {P : State → Prop} (hkeeps : ∀ s t, P s → step s = .next t → P t) {n : Nat} :
    ∀ {s t : State}, P s → Host.Core.run Sys2Proof.core n s = .next t → P t := by
  induction n with
  | zero =>
    intro s t hs hrun
    cases hrun
    exact hs
  | succ n ih =>
    intro s t hs hrun
    obtain ⟨u, hu⟩ := step_answers_next s
    rw [run_succ_of_next hu] at hrun
    exact ih (hkeeps s u hs hu) hrun

/-- A machine after reset to which the host presents the all-zero word. -/
def zeroWordState : State := { State.reset with inputs := [⟨false, true, 0#16, 0#64, 0#7⟩] }

/-- The state its accept step leaves: `ERRK` is 3 and `ECMD` is 0 (the last sentence of 10_state.md R37). -/
def zeroWordFault : State := { State.reset with st := 0b0111#4 }

theorem step_zeroWordState : step zeroWordState = .next zeroWordFault := rfl

/-- Settles O46, from the effects of a step. -/
theorem everyStepKeepsTheInvariants : Obligations.EveryStepKeepsTheInvariants := by
  have hzero : StateInv zeroWordState := stateInv_reset _
  refine ⟨fun _ _ => step_keeps_stateInv, fun q n t => run_keeps (fun _ _ => step_keeps_stateInv) (stateInv_reset q), ?_⟩
  exact ⟨zeroWordState, zeroWordFault, hzero, step_zeroWordState, step_keeps_stateInv hzero step_zeroWordState, rfl, rfl⟩

/-- Settles O47, from the values of 10_state.md R36. -/
theorem resetMeetsTheInvariants : Obligations.ResetMeetsTheInvariants := by
  refine fun q => ⟨stateInv_reset q, fun hrun _ => ?_, ?_⟩
  · cases hrun
  · simp [LegalOlen, State.reset]

end Sys2Proof.Machine

/-! O29, O48: what the effects of a step leave of the key and of `OLEN`. -/

namespace Sys2Proof.Machine

theorem ldk_ne_shf (t : Table) : Instr.ldk ≠ .shf t := by
  rcases t with t | b <;> [cases t; cases b] <;> simp [Instr.shf]

theorem ldk_ne_trd (t : Table) (k : Idx) : Instr.ldk ≠ .trd t k := by
  rcases t with t | b <;> [cases t; cases b] <;> simp [Instr.trd]

/-- Only the word 0x1000 decodes to `LDK` (30_encoding.md R74). -/
theorem word_of_decode_ldk {w : Word} (h : decode w = .ok .ldk) : w = 0x1000#16 := by
  obtain ⟨hz, hshape⟩ := decode_ok_cases h
  rcases hshape with ⟨hop, htbl, hdir, hidx, _⟩ | ⟨_, _, _, _, hi⟩ | ⟨_, _, _, _, hi⟩ | ⟨_, _, hi⟩ | ⟨_, _, hi⟩ |
    ⟨_, _, _, t, _, hi⟩ | ⟨_, _, t, _, _, hi⟩
  · rw [← wordOf_fields hz, hop, htbl, hdir, hidx]
    rfl
  · cases hi
  · cases hi
  · cases hi
  · cases hi
  · exact absurd hi (ldk_ne_shf t)
  · exact absurd hi (ldk_ne_trd t _)

/-- Settles O29, from the effects of a step: only two of them write the key. -/
theorem onlyLdkAndResetChangeTheKey : Obligations.OnlyLdkAndResetChangeTheKey := by
  intro s t hstep hchange
  obtain ⟨u, e, rfl⟩ := effect_of_step hstep
  cases e with
  | reset hrst => exact .inl hrst
  | loadKey hacc hcmd => exact .inr ⟨hacc, word_of_decode_ldk hcmd⟩
  | stay => simp at hchange
  | start => simp at hchange
  | deliver => simp at hchange
  | fault => simp at hchange
  | nextRound => simp at hchange

/-- The length of a delivered result is a legal value of `OLEN` (10_state.md R33). -/
theorem legalOlen_deliver (s : State) {n : Nat} (hn : n ∈ resultWidths) (v : BitVec n) :
    LegalOlen (complete s (Result.of v)) := by
  have hlegal : ∀ n ∈ resultWidths, BitVec.ofNat 7 n ∈ [0#7, 4#7, 7#7, 32#7, 48#7, 56#7, 64#7] := by decide
  exact hlegal n hn

theorem StepEffect.legalOlen {s u : State} (e : StepEffect s u) (h : LegalOlen s) : LegalOlen u := by
  cases e with
  | reset => simp [LegalOlen]
  | stay => exact h
  | loadKey => simp [LegalOlen, Result.none]
  | start => exact h
  | deliver hn v => exact legalOlen_deliver s hn v
  | fault => simp [LegalOlen]
  | nextRound => exact h

/-- Settles O48, from the effects of a step: each keeps `OLEN`, clears it or delivers a result. -/
theorem everyStepKeepsOlenLegal : Obligations.EveryStepKeepsOlenLegal := by
  intro s t h hstep
  obtain ⟨u, e, rfl⟩ := effect_of_step hstep
  exact e.legalOlen h

end Sys2Proof.Machine

/-! O30: what a completion shows the host is the result and the fault record, and those of `LDK`, `SHF` and `TRD` do not
read the key. -/

namespace Sys2Proof.Machine

theorem hostView_complete (s s' : State) (res : Result) : (complete s res).hostView = (complete s' res).hostView := rfl

theorem hostView_settle (s s' : State) (w : Word) (x : Except Raise Result) :
    (settle s w x).hostView = (settle s' w x).hostView := by
  cases x <;> rfl

/-- `SHF` reads only the operand. -/
theorem shfValue_with_key (t : Table) (s : State) (key : Bus) (klen : Len) :
    shfValue t { s with key := key, klen := klen } = shfValue t s := by
  cases t <;> rfl

/-- Settles O30, command by command. -/
theorem tableCommandsShowNothingOfTheKey : Obligations.TableCommandsShowNothingOfTheKey := by
  intro s t i key' klen' hi ht
  rcases hi with rfl | ⟨tbl, rfl⟩ | ⟨tbl, k, rfl⟩
  · rw [exec_ldk] at ht
    cases ht
    exact ⟨_, exec_ldk _, hostView_complete ..⟩
  · rw [exec_shf] at ht
    cases ht
    exact ⟨_, exec_shf tbl _, by rw [shfValue_with_key]; exact hostView_settle ..⟩
  · rw [exec_trd] at ht
    cases ht
    exact ⟨_, exec_trd tbl k _, hostView_settle ..⟩

end Sys2Proof.Machine

/-! O1, O4, O7, O8: the values after reset, the accept step, the ports of a running engine, and the outputs. -/

namespace Sys2Proof.Machine

/-- Settles O1: every register of 10_state.md R36 by its value. -/
theorem resetStateIsAllZero : Obligations.ResetStateIsAllZero := by
  unfold Obligations.ResetStateIsAllZero
  decide

/-- Settles O4: a command does not touch what the host drives, so `advance` only drops this step's sample. -/
theorem acceptStepRunsTheDecodedCommand : Obligations.AcceptStepRunsTheDecodedCommand := by
  intro s i hacc hcmd
  obtain ⟨t, ht⟩ := exec_answers_next i s
  exact ⟨t, ht, by rw [step_of_decode hacc hcmd, ht, advanceOutcome, advance, exec_inputs ht]⟩

/-- Without a reset a running engine's step is its round step, whatever this step's sample carries. -/
theorem step_run_with_inputs {s : State} {p : Ports} (q : List Ports) (hrun : s.ph = .run) (hrst : p.rst = false) :
    step { s with inputs := p :: q } = .next { roundStep s with inputs := q } := by
  rw [step_of_run (s := { s with inputs := p :: q }) hrst hrun, roundStep_inputs]
  rfl

/-- Settles O7: both steps are the round step. -/
theorem busyEngineIgnoresThePorts : Obligations.BusyEngineIgnoresThePorts := by
  intro s p p' q hrun hp hp'
  rw [step_run_with_inputs q hrun hp, step_run_with_inputs q hrun hp']

/-- `cmd_ready` is 1 exactly in `IDLE` (10_state.md R28, R37). -/
theorem StateInv.cmdReady_iff_idle {s : State} (h : StateInv s) : s.cmdReady = true ↔ s.ph = .idle := by
  have hbusy := h.busy_iff_run
  cases hph : s.ph <;> simp_all [State.cmdReady]

/-- Settles O8. -/
theorem outputsMirrorTheStatus : Obligations.OutputsMirrorTheStatus := by
  refine fun s => ⟨rfl, rfl, ?_, StateInv.cmdReady_iff_idle⟩
  simp [State.err, State.done, State.errk, bne, beq_eq_decide]

end Sys2Proof.Machine

/-! O37: a step ends in `RUN` only by starting a run, by going on to the next round, or by leaving the state as it is. -/

namespace Sys2Proof.Machine

/-- The start of a run writes `BUSY` and `DONE` but not `ERRK` (43_feistel.md R190, log 2). -/
theorem startRun_errk (d : Direction) (s : State) : (startRun d s).errk = s.errk := errk_of_st (startRun_st ..)

/-- Settles O37, from the effects of a step: reset, `LDK`, a delivered result and a fault all leave the engine idle. -/
theorem runningKeepsThePreviousResult : Obligations.RunningKeepsThePreviousResult := by
  intro s t hstep hrun
  obtain ⟨u, e, rfl⟩ := effect_of_step hstep
  cases e with
  | reset => simp at hrun
  | loadKey => simp at hrun
  | deliver => simp at hrun
  | fault => simp at hrun
  | stay => exact ⟨rfl, rfl, rfl, rfl, rfl, rfl, rfl, rfl⟩
  | start _ d => exact ⟨rfl, rfl, startRun_errk d s, rfl, rfl, rfl, rfl, rfl⟩
  | nextRound => exact ⟨rfl, rfl, rfl, rfl, rfl, rfl, rfl, rfl⟩

end Sys2Proof.Machine

/-! O12, O13: a word and its command determine each other. A command has one of seven shapes, and a word is determined by
its fields; `decode_eq_ok_iff` joins the two directions. -/

namespace Sys2Proof.Machine

/-- The word with the given fields is the only word with these fields and `Z = 0` (30_encoding.md R70). -/
theorem wordOf_eq_iff {op tbl : BitVec 4} {dir : BitVec 1} {idx : Idx} {w : Word} :
    wordOf op tbl dir idx = w ↔
      zField w = 0#1 ∧ opField w = op ∧ tblField w = tbl ∧ dirField w = dir ∧ idxField w = idx := by
  constructor
  · rintro rfl
    simp
  · rintro ⟨hz, rfl, rfl, rfl, rfl⟩
    exact wordOf_fields hz

theorem encode_shf (t : Table) : encode (.shf t) = shfWord t := by
  rcases t with t | b
  · cases t <;> rfl
  · cases b <;> rfl

theorem encode_trd (t : Table) (k : Idx) : encode (.trd t k) = trdWord t k := by
  rcases t with t | b
  · cases t <;> rfl
  · cases b <;> rfl

theorem wf_shf (t : Table) : (Instr.shf t).wf = true := by
  rcases t with t | b
  · cases t <;> rfl
  · cases b <;> rfl

/-- A `TRD` is well-formed exactly for an index inside its table (30_encoding.md R73). -/
theorem wf_trd_iff (t : Table) (k : Idx) : (Instr.trd t k).wf = true ↔ k.toNat < entriesOf t := by
  have hk : k.toNat < 64 := k.isLt
  rcases t with t | b
  · cases t <;> simp [Instr.trd, Instr.wf, entriesOf, hk]
  · cases b <;> simp [Instr.trd, Instr.wf, entriesOf, hk]

theorem decode_shfWord (t : Table) : decode (shfWord t) = .ok (.shf t) := by
  simp [shfWord, decode_wordOf, decodeShf]

theorem decode_trdWord {t : Table} {k : Idx} (hk : k.toNat < entriesOf t) : decode (trdWord t k) = .ok (.trd t k) := by
  simp [trdWord, decode_wordOf, decodeTrd, hk]

/-- Settles O12, shape by shape: the fields of a word built from its fields are those fields. -/
theorem decodeOfEncodeIsTheCommand : Obligations.DecodeOfEncodeIsTheCommand := by
  intro i hwf
  rcases instr_shape i with rfl | rfl | rfl | ⟨d, r, rfl⟩ | ⟨d, r, rfl⟩ | ⟨t, rfl⟩ | ⟨t, k, rfl⟩
  · rfl
  · rfl
  · rfl
  · simp [encode, decode_wordOf, decodeRound]
  · simp [encode, decode_wordOf, decodeRound]
  · rw [encode_shf, decode_shfWord]
  · rw [encode_trd, decode_trdWord ((wf_trd_iff t k).mp hwf)]

/-- Settles O13: each case of a legal word names all its fields, and the word is determined by them. -/
theorem encodeOfDecodeIsTheWord : Obligations.EncodeOfDecodeIsTheWord := by
  intro w i h
  obtain ⟨hz, hshape⟩ := decode_ok_cases h
  rcases hshape with ⟨hop, htbl, hdir, hidx, rfl⟩ | ⟨hop, htbl, hdir, hidx, rfl⟩ | ⟨hop, htbl, hdir, hidx, rfl⟩ |
    ⟨hop, htbl, rfl⟩ | ⟨hop, htbl, rfl⟩ | ⟨hop, hdir, hidx, t, ht, rfl⟩ | ⟨hop, hdir, t, ht, hlt, rfl⟩
  · exact ⟨wordOf_eq_iff.mpr ⟨hz, hop, htbl, hdir, hidx⟩, rfl⟩
  · exact ⟨wordOf_eq_iff.mpr ⟨hz, hop, htbl, hdir, hidx⟩, rfl⟩
  · exact ⟨wordOf_eq_iff.mpr ⟨hz, hop, htbl, hdir, hidx⟩, rfl⟩
  · exact ⟨wordOf_eq_iff.mpr ⟨hz, hop, htbl, (bitOfDir_dirOfBit _).symm, rfl⟩, rfl⟩
  · exact ⟨wordOf_eq_iff.mpr ⟨hz, hop, htbl, (bitOfDir_dirOfBit _).symm, rfl⟩, rfl⟩
  · rw [encode_shf]
    exact ⟨wordOf_eq_iff.mpr ⟨hz, hop, (codeOfTable_of_tableOfCode ht).symm, hdir, hidx⟩, wf_shf t⟩
  · rw [encode_trd]
    exact ⟨wordOf_eq_iff.mpr ⟨hz, hop, (codeOfTable_of_tableOfCode ht).symm, hdir, rfl⟩, (wf_trd_iff t _).mpr hlt⟩

/-- A word decodes to a command exactly when it is the word of it and the command is well-formed (30_encoding.md R74). -/
theorem decode_eq_ok_iff {w : Word} {i : Instr} : decode w = .ok i ↔ encode i = w ∧ i.wf = true :=
  ⟨encodeOfDecodeIsTheWord w i, fun ⟨hw, hwf⟩ => hw ▸ decodeOfEncodeIsTheCommand i hwf⟩

end Sys2Proof.Machine

/-! O9, O10: the words of each kind of command by their fields, and what a mask says of the fields. -/

namespace Sys2Proof.Machine

/-! ### The words of each kind of command -/

/-- The only word of a command without operands. -/
theorem decode_plain_iff {w : Word} {i : Instr} {op : BitVec 4} (hword : encode i = wordOf op 0#4 0#1 0#6)
    (hwf : i.wf = true) :
    decode w = .ok i ↔ zField w = 0#1 ∧ opField w = op ∧ tblField w = 0#4 ∧ dirField w = 0#1 ∧ idxField w = 0#6 := by
  rw [decode_eq_ok_iff, hword, wordOf_eq_iff, and_iff_left hwf]

/-- Both values of `DIR` name a direction (30_encoding.md R75). -/
theorem exists_bitOfDir (b : BitVec 1) : ∃ d, b = bitOfDir d := ⟨dirOfBit b, (bitOfDir_dirOfBit b).symm⟩

/-- The words of a command with a direction and a round, `DRK` or `FRD`. -/
theorem decode_round_iff {w : Word} {mk : Direction → Idx → Instr} {op : BitVec 4}
    (hword : ∀ d r, encode (mk d r) = wordOf op 0#4 (bitOfDir d) r) (hwf : ∀ d r, (mk d r).wf = true) :
    (∃ d r, decode w = .ok (mk d r)) ↔ zField w = 0#1 ∧ opField w = op ∧ tblField w = 0#4 := by
  simp [decode_eq_ok_iff, hword, hwf, wordOf_eq_iff, exists_bitOfDir]

/-- Every code but 6 and 7 is the code of a table (30_encoding.md R72). -/
theorem exists_codeOfTable_iff {c : BitVec 4} : (∃ t, c = codeOfTable t) ↔ c ≠ 6#4 ∧ c ≠ 7#4 := by
  rw [← not_or, ← tableOfCode_eq_none, ← ne_eq, Option.ne_none_iff_exists']
  constructor
  · rintro ⟨t, rfl⟩
    exact ⟨t, tableOfCode_codeOfTable t⟩
  · rintro ⟨t, ht⟩
    exact ⟨t, (codeOfTable_of_tableOfCode ht).symm⟩

/-- `N_entries` by name and by code agree (30_encoding.md R73). -/
theorem entriesOf_eq_entriesOfCode (t : Table) : entriesOf t = entriesOfCode (codeOfTable t).toNat := by
  rcases t with t | b
  · cases t <;> rfl
  · cases b <;> rfl

theorem decode_shf_iff {w : Word} :
    (∃ t, decode w = .ok (.shf t)) ↔
      zField w = 0#1 ∧ opField w = 6#4 ∧ (tblField w ≠ 6#4 ∧ tblField w ≠ 7#4) ∧ dirField w = 0#1 ∧ idxField w = 0#6 := by
  simp only [decode_eq_ok_iff, encode_shf, wf_shf, shfWord, wordOf_eq_iff, ← exists_codeOfTable_iff]
  simp

theorem decode_trd_iff {w : Word} :
    (∃ t k, decode w = .ok (.trd t k)) ↔
      zField w = 0#1 ∧ opField w = 7#4 ∧ (tblField w ≠ 6#4 ∧ tblField w ≠ 7#4) ∧ dirField w = 0#1 ∧
        (idxField w).toNat < entriesOfCode (tblField w).toNat := by
  simp only [decode_eq_ok_iff, encode_trd, wf_trd_iff, trdWord, wordOf_eq_iff, ← exists_codeOfTable_iff,
    entriesOf_eq_entriesOfCode]
  constructor
  · rintro ⟨t, k, ⟨hz, hop, htbl, hdir, rfl⟩, hk⟩
    exact ⟨hz, hop, ⟨t, htbl⟩, hdir, htbl ▸ hk⟩
  · rintro ⟨hz, hop, ⟨t, htbl⟩, hdir, hk⟩
    exact ⟨t, _, ⟨hz, hop, htbl, hdir, rfl⟩, htbl ▸ hk⟩

/-! ### The illegal words -/

theorem exists_error_iff (w : Word) : (∃ e, decode w = .error e) ↔ ¬ ∃ i, decode w = .ok i := by
  cases decode w <;> simp

/-- A property of some command, by the seven shapes of 30_encoding.md R74. -/
theorem exists_instr_iff {P : Instr → Prop} :
    (∃ i, P i) ↔ P .ldk ∨ P .enc ∨ P .dec ∨ (∃ d r, P (.drk d r)) ∨ (∃ d r, P (.frd d r)) ∨ (∃ t, P (.shf t)) ∨
      (∃ t k, P (.trd t k)) := by
  constructor
  · rintro ⟨i, h⟩
    rcases instr_shape i with rfl | rfl | rfl | ⟨d, r, rfl⟩ | ⟨d, r, rfl⟩ | ⟨t, rfl⟩ | ⟨t, k, rfl⟩
    · exact .inl h
    · exact .inr (.inl h)
    · exact .inr (.inr (.inl h))
    · exact .inr (.inr (.inr (.inl ⟨d, r, h⟩)))
    · exact .inr (.inr (.inr (.inr (.inl ⟨d, r, h⟩))))
    · exact .inr (.inr (.inr (.inr (.inr (.inl ⟨t, h⟩)))))
    · exact .inr (.inr (.inr (.inr (.inr (.inr ⟨t, k, h⟩)))))
  · rintro (h | h | h | ⟨_, _, h⟩ | ⟨_, _, h⟩ | ⟨_, h⟩ | ⟨_, _, h⟩) <;> exact ⟨_, h⟩

/-- The legal words by their fields, one line per kind of command (30_encoding.md R73, R74). -/
theorem exists_decode_ok_iff (w : Word) :
    (∃ i, decode w = .ok i) ↔ zField w = 0#1 ∧
      ((opField w = 1#4 ∧ tblField w = 0#4 ∧ dirField w = 0#1 ∧ idxField w = 0#6) ∨
       (opField w = 2#4 ∧ tblField w = 0#4 ∧ dirField w = 0#1 ∧ idxField w = 0#6) ∨
       (opField w = 3#4 ∧ tblField w = 0#4 ∧ dirField w = 0#1 ∧ idxField w = 0#6) ∨
       (opField w = 4#4 ∧ tblField w = 0#4) ∨
       (opField w = 5#4 ∧ tblField w = 0#4) ∨
       (opField w = 6#4 ∧ (tblField w ≠ 6#4 ∧ tblField w ≠ 7#4) ∧ dirField w = 0#1 ∧ idxField w = 0#6) ∨
       (opField w = 7#4 ∧ (tblField w ≠ 6#4 ∧ tblField w ≠ 7#4) ∧ dirField w = 0#1 ∧
         (idxField w).toNat < entriesOfCode (tblField w).toNat)) := by
  rw [exists_instr_iff, decode_plain_iff (i := .ldk) rfl rfl, decode_plain_iff (i := .enc) rfl rfl,
    decode_plain_iff (i := .dec) rfl rfl, decode_round_iff (mk := .drk) (fun _ _ => rfl) (fun _ _ => rfl),
    decode_round_iff (mk := .frd) (fun _ _ => rfl) (fun _ _ => rfl), decode_shf_iff, decode_trd_iff]
  simp only [← and_or_left]

/-- Settles O9: with the fields read as numbers, each value of `OP` leaves one line of `exists_decode_ok_iff` and one
condition of R73, which exclude each other. -/
theorem decodingRefusesExactlyTheIllegalWords : Obligations.DecodingRefusesExactlyTheIllegalWords := by
  intro w
  obtain ⟨hop, htbl, hdir, hz, hidx⟩ := toNat_fields w
  have hlt : w.toNat / 4096 < 16 := hop ▸ (opField w).isLt
  simp only [exists_error_iff, exists_decode_ok_iff, IllegalWord, ← BitVec.toNat_inj, hop, htbl, hdir, hz, hidx, ne_eq,
    BitVec.toNat_ofNat, Nat.reducePow, Nat.reduceMod]
  generalize w.toNat / 4096 = op at hlt
  interval_cases op <;> simp <;> omega

/-! ### Masks -/

/-- A word is determined by its five fields (30_encoding.md R70). -/
theorem word_eq_iff_fields {w v : Word} :
    w = v ↔ zField w = zField v ∧ opField w = opField v ∧ tblField w = tblField v ∧ dirField w = dirField v ∧
      idxField w = idxField v := by
  constructor
  · rintro rfl
    simp
  · rintro ⟨hz, hop, htbl, hdir, hidx⟩
    have hw := toNat_fields w
    rw [hz, hop, htbl, hdir, hidx] at hw
    have hv := toNat_fields v
    apply BitVec.eq_of_toNat_eq
    omega

/-- A mask works on each field of a word by itself. -/
theorem and_eq_iff_fields {w m v : Word} :
    w &&& m = v ↔ zField w &&& zField m = zField v ∧ opField w &&& opField m = opField v ∧
      tblField w &&& tblField m = tblField v ∧ dirField w &&& dirField m = dirField v ∧
      idxField w &&& idxField m = idxField v := by
  rw [word_eq_iff_fields]
  simp [zField, opField, tblField, dirField, idxField, BitVec.extractLsb'_and]

/-- The mask 0xFFFF of a command without operands leaves nothing free. -/
theorem decode_eq_ok_iff_mask {w : Word} {i : Instr} (hwf : i.wf = true) :
    decode w = .ok i ↔ w &&& 0xFFFF#16 = encode i := by
  rw [show w &&& 0xFFFF#16 = w from BitVec.and_allOnes, decode_eq_ok_iff, eq_comm (a := w), and_iff_left hwf]

/-- The mask 0xFF40 of `DRK` and `FRD` leaves `DIR` and `IDX` free. -/
theorem round_mask_iff (w : Word) (op : BitVec 4) :
    w &&& 0xFF40#16 = wordOf op 0#4 0#1 0#6 ↔ zField w = 0#1 ∧ opField w = op ∧ tblField w = 0#4 := by
  have hmask : zField 0xFF40#16 = .allOnes 1 ∧ opField 0xFF40#16 = .allOnes 4 ∧ tblField 0xFF40#16 = .allOnes 4 ∧
      dirField 0xFF40#16 = 0#1 ∧ idxField 0xFF40#16 = 0#6 := by decide
  simp [and_eq_iff_fields, hmask, -BitVec.reduceAllOnes]

/-- The mask 0xF0FF of `SHF` leaves `TBL` free. -/
theorem shf_mask_iff (w : Word) :
    w &&& 0xF0FF#16 = wordOf 6#4 0#4 0#1 0#6 ↔
      zField w = 0#1 ∧ opField w = 6#4 ∧ dirField w = 0#1 ∧ idxField w = 0#6 := by
  have hmask : zField 0xF0FF#16 = .allOnes 1 ∧ opField 0xF0FF#16 = .allOnes 4 ∧ tblField 0xF0FF#16 = 0#4 ∧
      dirField 0xF0FF#16 = .allOnes 1 ∧ idxField 0xF0FF#16 = .allOnes 6 := by decide
  simp [and_eq_iff_fields, hmask, -BitVec.reduceAllOnes]

/-- The mask 0xF0C0 of `TRD` leaves `TBL` and `IDX` free. -/
theorem trd_mask_iff (w : Word) :
    w &&& 0xF0C0#16 = wordOf 7#4 0#4 0#1 0#6 ↔ zField w = 0#1 ∧ opField w = 7#4 ∧ dirField w = 0#1 := by
  have hmask : zField 0xF0C0#16 = .allOnes 1 ∧ opField 0xF0C0#16 = .allOnes 4 ∧ tblField 0xF0C0#16 = 0#4 ∧
      dirField 0xF0C0#16 = .allOnes 1 ∧ idxField 0xF0C0#16 = 0#6 := by decide
  simp [and_eq_iff_fields, hmask, -BitVec.reduceAllOnes]

theorem tblField_ne_iff {w : Word} :
    (tblField w ≠ 6#4 ∧ tblField w ≠ 7#4) ↔ w.toNat / 256 % 16 ≠ 6 ∧ w.toNat / 256 % 16 ≠ 7 := by
  obtain ⟨_, htbl, _, _, _⟩ := toNat_fields w
  simp [← BitVec.toNat_inj, htbl]

theorem decode_shf_iff_mask {w : Word} :
    (∃ t, decode w = .ok (.shf t)) ↔
      w &&& 0xF0FF#16 = 0x6000#16 ∧ w.toNat / 256 % 16 ≠ 6 ∧ w.toNat / 256 % 16 ≠ 7 := by
  rw [decode_shf_iff, tblField_ne_iff, show 0x6000#16 = wordOf 6#4 0#4 0#1 0#6 from rfl, shf_mask_iff]
  tauto

theorem decode_trd_iff_mask {w : Word} :
    (∃ t k, decode w = .ok (.trd t k)) ↔
      w &&& 0xF0C0#16 = 0x7000#16 ∧ w.toNat / 256 % 16 ≠ 6 ∧ w.toNat / 256 % 16 ≠ 7 ∧
        w.toNat % 64 < entriesOfCode (w.toNat / 256 % 16) := by
  obtain ⟨_, htbl, _, _, hidx⟩ := toNat_fields w
  rw [decode_trd_iff, tblField_ne_iff, htbl, hidx, show 0x7000#16 = wordOf 7#4 0#4 0#1 0#6 from rfl, trd_mask_iff]
  tauto

/-- Settles O10, row by row of the table of R74: a match and mask say of the fields what decoding asks of them. -/
theorem matchAndMaskSelectTheCommand : Obligations.MatchAndMaskSelectTheCommand := fun w =>
  ⟨decode_eq_ok_iff_mask (i := .ldk) rfl, decode_eq_ok_iff_mask (i := .enc) rfl, decode_eq_ok_iff_mask (i := .dec) rfl,
    (decode_round_iff (fun _ _ => rfl) fun _ _ => rfl).trans (round_mask_iff w 4#4).symm,
    (decode_round_iff (fun _ _ => rfl) fun _ _ => rfl).trans (round_mask_iff w 5#4).symm,
    decode_shf_iff_mask, decode_trd_iff_mask⟩

end Sys2Proof.Machine

/-! O11, O14, O19: words as numbers. -/

namespace Sys2Proof.Machine

/-- The number of a well-formed command's word decodes to the command. -/
theorem decode_ofNat {i : Instr} {n : Nat} (hwf : i.wf = true) (hn : (encode i).toNat = n) :
    decode (BitVec.ofNat 16 n) = .ok i := by
  rw [← hn, BitVec.ofNat_toNat, BitVec.setWidth_eq]
  exact decodeOfEncodeIsTheCommand i hwf

/-- `DIR` is bit 7 of a word (30_encoding.md R70, R78). -/
theorem dirValue_eq (d : Direction) : dirValue d = 128 * (bitOfDir d).toNat := by cases d <;> rfl

theorem toNat_shfWord (t : Table) : (shfWord t).toNat = 0x6000 + 0x100 * (codeOfTable t).toNat := by
  simp [shfWord, toNat_wordOf]

theorem toNat_trdWord (t : Table) (k : Idx) : (trdWord t k).toNat = 0x7000 + 0x100 * (codeOfTable t).toNat + k.toNat := by
  simp [trdWord, toNat_wordOf]

/-- Settles O11: each number is that of the command's word; a table's number is its code. -/
theorem wordsCarryTheirOperands : Obligations.WordsCarryTheirOperands := by
  constructor
  · intro d r
    constructor
    · exact decode_ofNat rfl (by simp [encode, toNat_wordOf, dirValue_eq])
    · exact decode_ofNat rfl (by simp [encode, toNat_wordOf, dirValue_eq])
  · intro x hx
    have hcode : x.2 = (codeOfTable x.1).toNat := by
      revert x
      decide
    rw [hcode]
    constructor
    · exact decode_ofNat (wf_shf _) (by rw [encode_shf, toNat_shfWord])
    · intro k hk
      rw [← entriesOf_eq_entriesOfCode] at hk
      exact decode_ofNat ((wf_trd_iff _ k).mpr hk) (by rw [encode_trd, toNat_trdWord])

/-- Settles O14, word by word. -/
theorem sampleWordsDecode : Obligations.SampleWordsDecode := by
  unfold Obligations.SampleWordsDecode
  decide

/-- A `TRD` past its table faults with the word that has its index (30_encoding.md R73, log 10). -/
theorem exec_trd_pastTable {t : PosTable} {k : Idx} (s : State) (hk : nOut t ≤ k.toNat) :
    ∃ u, exec (.trd (.pos t) k) s = .next u ∧
      Faulted s u 3#2 0#7 0#7 (BitVec.ofNat 16 (0x7000 + 0x100 * (codeOfTable (.pos t)).toNat + k.toNat)) := by
  refine ⟨raise s .illegalCommand (trdWord (.pos t) k), ?_, ?_⟩
  · rw [exec_trd, encode_trd, trdValue, trdPos, if_neg (Nat.not_lt.mpr hk), settle_error]
  · rw [← toNat_trdWord, BitVec.ofNat_toNat, BitVec.setWidth_eq]
    exact faulted_raise ..

/-- Settles O19, table by table: these are the four whose entry count is below 64. -/
theorem trdPastTheTableIsIllegal : Obligations.TrdPastTheTableIsIllegal := by
  intro s k x hx hk
  simp only [List.mem_cons, List.not_mem_nil, or_false] at hx
  rcases hx with rfl | rfl | rfl | rfl
  · exact exec_trd_pastTable (t := .e) s hk
  · exact exec_trd_pastTable (t := .p) s hk
  · exact exec_trd_pastTable (t := .pc1) s hk
  · exact exec_trd_pastTable (t := .pc2) s hk

end Sys2Proof.Machine

/-! O21: the laws of the bit operations, for every length. Those of rotation, slice and permutation are read off at a
single bit: each bit of the result is one bit of the operand, so a law is an equation between two indices. -/

namespace Sys2Proof.Machine

/-- Inside the sequence the amount of a rotation needs no reduction of its own (40_bitsequence.md R103). -/
theorem getMsbD_rotl_of_lt {n i : Nat} (s : BitVec n) (k : Nat) (hi : i < n) :
    (rotl s k).getMsbD i = s.getMsbD ((i + k) % n) := by
  rw [getMsbD_rotl, decide_eq_true hi, Bool.true_and, Nat.add_mod_mod]

theorem rotl_rotl {n : Nat} (s : BitVec n) (j k : Nat) : rotl (rotl s j) k = rotl s (j + k) :=
  eq_of_bits fun i hi => by
    have hk : (i + k) % n < n := Nat.mod_lt _ (Nat.zero_lt_of_lt hi)
    have hindex : ((i + k) % n + j) % n = (i + (j + k)) % n := by
      rw [Nat.mod_add_mod, Nat.add_assoc, Nat.add_comm k j]
    rw [getMsbD_rotl_of_lt _ k hi, getMsbD_rotl_of_lt s j hk, getMsbD_rotl_of_lt s (j + k) hi, hindex]

theorem rotl_length {n : Nat} (s : BitVec n) : rotl s n = s :=
  eq_of_bits fun i hi => by rw [getMsbD_rotl_of_lt s n hi, Nat.add_mod_right, Nat.mod_eq_of_lt hi]

theorem rotl_zero {n : Nat} (s : BitVec n) : rotl s 0 = s :=
  eq_of_bits fun i hi => by rw [getMsbD_rotl_of_lt s 0 hi, Nat.add_zero, Nat.mod_eq_of_lt hi]

theorem slice_append_left {m n : Nat} (a : BitVec m) (b : BitVec n) : slice (a ++ b) 0 m = a :=
  eq_of_bits fun i hi => by
    rw [getMsbD_slice, decide_eq_true hi, Bool.true_and, Nat.zero_add, getMsbD_join, if_pos hi]

theorem slice_append_right {m n : Nat} (a : BitVec m) (b : BitVec n) : slice (a ++ b) m n = b :=
  eq_of_bits fun i hi => by
    have hpast : ¬ m + i < m := Nat.not_lt.mpr (Nat.le_add_right m i)
    rw [getMsbD_slice, decide_eq_true hi, Bool.true_and, getMsbD_join, if_neg hpast, Nat.add_sub_cancel_left]

/-- Each output bit copies one input bit (41_tables.md R120); a position past the end reads as 0 on both sides (log 11). -/
theorem perm_xor {m : Nat} (n : Nat) (t : PosTable) (a b : BitVec m) :
    perm n t (a ^^^ b) = perm n t a ^^^ perm n t b :=
  eq_of_bits fun i hi => by
    simp only [BitVec.getMsbD_xor, getMsbD_perm, decide_eq_true hi, Bool.true_and]

/-- Settles O21, operation by operation. -/
theorem bitOperationsObeyTheirLaws : Obligations.BitOperationsObeyTheirLaws := by
  refine ⟨fun n a b c => ?_, fun n s j k => ?_, fun m n a b => ?_, fun m n t a b => ?_⟩
  · have hundo : (a ^^^ b) ^^^ b = a := by rw [BitVec.xor_assoc, BitVec.xor_self, BitVec.xor_zero]
    exact ⟨BitVec.xor_comm a b, BitVec.xor_assoc a b c, BitVec.xor_self, BitVec.xor_zero, hundo⟩
  · exact ⟨rotl_rotl s j k, rotl_length s, rotl_zero s⟩
  · exact ⟨slice_append_left a b, slice_append_right a b⟩
  · exact perm_xor n t a b

end Sys2Proof.Machine

/-! O16, O17, O18: `SHF` and `TRD` of each table, said once for all position tables and once for all S-boxes; a row of a
statement is an instance. -/

namespace Sys2Proof.Machine

/-! ### `SHF` of a position table -/

/-- Every entry of a position table is a position of the input the table requires (41_tables.md R121). -/
theorem prom_position_lt {t : PosTable} {j : Nat} (hj : j < nOut t) : (prom t).getD j 0 - 1 < nReq t := by
  have h : ∀ j < nOut t, (prom t).getD j 0 - 1 < nReq t := by cases t <;> decide
  exact h j hj

/-- The operand's bits inside the declared length are those of `DIN` (10_state.md R27). -/
theorem getMsbD_operand {s : State} {i : Nat} (hlen : i < s.ports.dlen.toNat) (hcap : i < 64) :
    s.operand.getMsbD i = s.ports.din.getMsbD i := by
  rw [State.operand, getMsbD_carried, decide_eq_true (Nat.lt_min.mpr ⟨hlen, hcap⟩), Bool.true_and]

theorem exec_shf_pos_short {t : PosTable} {s : State} (hlen : s.ports.dlen.toNat < nReq t) :
    exec (.shf (.pos t)) s =
      .next (raise s (.invalidLength (BitVec.ofNat 7 (nReq t)) s.ports.dlen) (shfWord (.pos t))) := by
  rw [exec_shf, encode_shf, shfValue, shfPos, State.operandLen, if_pos hlen, settle_error]

theorem exec_shf_pos_ok {t : PosTable} {s : State} (hlen : nReq t ≤ s.ports.dlen.toNat) :
    exec (.shf (.pos t)) s = .next (complete s (Result.of (perm (nOut t) t s.operand))) := by
  rw [exec_shf, shfValue, shfPos, State.operandLen, if_neg (Nat.not_lt.mpr hlen), settle_ok]

/-- With the required length no table reads past the operand, so the result's bits are bits of `DIN`. -/
theorem completed_perm_operand {t : PosTable} {s : State} (hlen : nReq t ≤ s.ports.dlen.toNat) :
    Completed s (complete s (Result.of (perm (nOut t) t s.operand))) (nOut t)
      fun j => s.ports.din.getMsbD ((prom t).getD j 0 - 1) := by
  refine (completed_of s _).congr fun j hj => ?_
  have hcap : nReq t ≤ 64 := by cases t <;> decide
  have hpos : (prom t).getD j 0 - 1 < nReq t := prom_position_lt hj
  rw [getMsbD_perm, decide_eq_true hj, Bool.true_and, getMsbD_operand (by omega) (by omega)]

/-- `SHF` of a position table, whole (41_tables.md R120, R121). -/
theorem exec_shf_pos_spec (t : PosTable) (s : State) :
    ∃ u, exec (.shf (.pos t)) s = .next u ∧
      (s.ports.dlen.toNat < nReq t → Faulted s u 1#2 (BitVec.ofNat 7 (nReq t)) s.ports.dlen (shfWord (.pos t))) ∧
      (nReq t ≤ s.ports.dlen.toNat → Completed s u (nOut t) fun j => s.ports.din.getMsbD ((prom t).getD j 0 - 1)) := by
  rcases Nat.lt_or_ge s.ports.dlen.toNat (nReq t) with hlen | hlen
  · exact ⟨_, exec_shf_pos_short hlen, fun _ => faulted_raise .., fun hok => absurd hlen (Nat.not_lt.mpr hok)⟩
  · exact ⟨_, exec_shf_pos_ok hlen, fun hshort => absurd hshort (Nat.not_lt.mpr hlen),
      fun _ => completed_perm_operand hlen⟩

/-- Settles O16, table by table. -/
theorem shfAppliesAPositionTable : Obligations.ShfAppliesAPositionTable := by
  intro s x hx
  simp only [List.mem_cons, List.not_mem_nil, or_false] at hx
  rcases hx with rfl | rfl | rfl | rfl | rfl | rfl
  · exact exec_shf_pos_spec .ip s
  · exact exec_shf_pos_spec .ipInverse s
  · exact exec_shf_pos_spec .e s
  · exact exec_shf_pos_spec .p s
  · exact exec_shf_pos_spec .pc1 s
  · exact exec_shf_pos_spec .pc2 s

/-! ### `SHF` of an S-box -/

theorem exec_shf_box_badLength {b : SBox} {s : State} (hlen : s.ports.dlen ≠ 6#7) :
    exec (.shf (.box b)) s = .next (raise s (.invalidLength 6#7 s.ports.dlen) (shfWord (.box b))) := by
  rw [exec_shf, encode_shf, shfValue, shfBox, State.operandLen, if_pos hlen, settle_error]

/-- An operand of six bits is the first six bits of `DIN` (10_state.md R27). -/
theorem seq_operand_six {s : State} (hlen : s.ports.dlen = 6#7) : seq s.operand 6 = seq s.ports.din 6 :=
  eq_of_bits fun i hi => by
    have hbit : s.operand.getMsbD i = s.ports.din.getMsbD i := getMsbD_operand (by rw [hlen]; exact hi) (by omega)
    rw [getMsbD_seq, getMsbD_seq, hbit]

theorem exec_shf_box_ok {b : SBox} {s : State} (hlen : s.ports.dlen = 6#7) :
    exec (.shf (.box b)) s = .next (complete s (Result.of (sub b (seq s.ports.din 6)))) := by
  rw [exec_shf, shfValue, shfBox, State.operandLen, if_neg (not_not.mpr hlen), settle_ok, seq_operand_six hlen]

/-- `SHF` of an S-box, whole (41_tables.md R135, R136). -/
theorem exec_shf_box_spec (b : SBox) (s : State) :
    ∃ u, exec (.shf (.box b)) s = .next u ∧
      (s.ports.dlen ≠ 6#7 → Faulted s u 1#2 6#7 s.ports.dlen (shfWord (.box b))) ∧
      (s.ports.dlen = 6#7 → Completed s u 4 fun j => (sboxEntry b (s.ports.din.toNat / 2 ^ 58)).testBit (3 - j)) := by
  by_cases hlen : s.ports.dlen = 6#7
  · refine ⟨_, exec_shf_box_ok hlen, fun hbad => absurd hlen hbad, fun _ => ?_⟩
    exact (completed_of s _).congr fun j hj => by rw [getMsbD_sub b _ hj, toNat_seq_six]
  · exact ⟨_, exec_shf_box_badLength hlen, fun _ => faulted_raise .., fun hok => absurd hok hlen⟩

/-- Settles O17, box by box. -/
theorem shfAppliesAnSBox : Obligations.ShfAppliesAnSBox := by
  intro s x hx
  simp only [List.mem_cons, List.not_mem_nil, or_false] at hx
  rcases hx with rfl | rfl | rfl | rfl | rfl | rfl | rfl | rfl
  · exact exec_shf_box_spec .s1 s
  · exact exec_shf_box_spec .s2 s
  · exact exec_shf_box_spec .s3 s
  · exact exec_shf_box_spec .s4 s
  · exact exec_shf_box_spec .s5 s
  · exact exec_shf_box_spec .s6 s
  · exact exec_shf_box_spec .s7 s
  · exact exec_shf_box_spec .s8 s

/-! ### `TRD` -/

/-- A completion with the number `v` in `n` bits, most significant first (40_bitsequence.md R106). -/
theorem completed_ofNat (s : State) (n v : Nat) :
    Completed s (complete s (Result.of (BitVec.ofNat n v))) n fun j => v.testBit (n - 1 - j) :=
  (completed_of s _).congr fun _ hj => getMsbD_ofNat v hj

/-- `TRD` of a position table inside it (41_tables.md R125). -/
theorem exec_trd_pos_inside {t : PosTable} {k : Idx} (s : State) (hk : k.toNat < nOut t) :
    ∃ u, exec (.trd (.pos t) k) s = .next u ∧ Completed s u 7 fun j => ((prom t).getD k.toNat 0).testBit (6 - j) := by
  refine ⟨_, ?_, completed_ofNat s 7 _⟩
  rw [exec_trd, trdValue, trdPos, if_pos hk, settle_ok]

/-- `TRD` of an S-box, whose 64 addresses are all the indices (41_tables.md R125). -/
theorem exec_trd_box (b : SBox) (k : Idx) (s : State) :
    ∃ u, exec (.trd (.box b) k) s = .next u ∧ Completed s u 4 fun j => ((srom b).getD k.toNat 0).testBit (3 - j) := by
  refine ⟨_, ?_, completed_ofNat s 4 _⟩
  rw [exec_trd, trdValue, trdBox, settle_ok]

/-- Settles O18, table by table. -/
theorem trdReadsAnEntry : Obligations.TrdReadsAnEntry := by
  intro s k
  constructor
  · intro x hx hk
    simp only [List.mem_cons, List.not_mem_nil, or_false] at hx
    rcases hx with rfl | rfl | rfl | rfl | rfl | rfl
    · exact exec_trd_pos_inside (t := .ip) s hk
    · exact exec_trd_pos_inside (t := .ipInverse) s hk
    · exact exec_trd_pos_inside (t := .e) s hk
    · exact exec_trd_pos_inside (t := .p) s hk
    · exact exec_trd_pos_inside (t := .pc1) s hk
    · exact exec_trd_pos_inside (t := .pc2) s hk
  · intro x hx
    simp only [List.mem_cons, List.not_mem_nil, or_false] at hx
    rcases hx with rfl | rfl | rfl | rfl | rfl | rfl | rfl | rfl
    · exact exec_trd_box .s1 k s
    · exact exec_trd_box .s2 k s
    · exact exec_trd_box .s3 k s
    · exact exec_trd_box .s4 k s
    · exact exec_trd_box .s5 k s
    · exact exec_trd_box .s6 k s
    · exact exec_trd_box .s7 k s
    · exact exec_trd_box .s8 k s

end Sys2Proof.Machine

/-! O20: `IP` and `IP_INVERSE` undo each other, first as lists of positions, then on blocks, then through the commands. -/

namespace Sys2Proof.Machine

/-- Position table `t` undoes position table `u` on 64-bit blocks: entry `i` of `t` is the place where `u` puts input
position `i`, and it is inside the block (41_tables.md R128). -/
def Undoes (t u : PosTable) : Prop :=
  ∀ i < 64, (prom t).getD i 0 - 1 < 64 ∧ (prom u).getD ((prom t).getD i 0 - 1) 0 = i + 1

theorem ipInverse_undoes_ip : Undoes .ipInverse .ip := by
  unfold Undoes
  decide

theorem ip_undoes_ipInverse : Undoes .ip .ipInverse := by
  unfold Undoes
  decide

/-- A table that undoes another gives each bit of the block back at its own index. -/
theorem Undoes.perm_perm {t u : PosTable} (h : Undoes t u) (b : BitVec 64) : perm 64 t (perm 64 u b) = b :=
  eq_of_bits fun i hi => by
    obtain ⟨hpos, hback⟩ := h i hi
    rw [getMsbD_perm_perm 64 64 t u b i hi hpos, hback, Nat.add_sub_cancel]

/-- The table takes a 64-bit block to a 64-bit block (20_memory.md R51, 41_tables.md R121). -/
def OnBlocks (t : PosTable) : Prop := nReq t = 64 ∧ nOut t = 64

/-- `SHF` of such a table permutes the whole of `DIN`. -/
theorem exec_shf_onBlocks {t : PosTable} (ht : OnBlocks t) {s : State} (hlen : 64 ≤ s.ports.dlen.toNat) :
    exec (.shf (.pos t)) s = .next (complete s (Result.of (perm 64 t s.ports.din))) := by
  obtain ⟨hreq, hout⟩ := ht
  rw [exec_shf_pos_ok (hreq ▸ hlen), hout, operand_of_le hlen]

/-- `SHF` of a table, fed with the result of `SHF` of a table it undoes, returns the first operand. -/
theorem Undoes.exec_shf_shf {t u : PosTable} (h : Undoes t u) (ht : OnBlocks t) (hu : OnBlocks u) {s s' r : State}
    (hlen : 64 ≤ s.ports.dlen.toNat) (hlen' : 64 ≤ s'.ports.dlen.toNat) (hdin : s'.ports.din = r.dout)
    (hr : exec (.shf (.pos u)) s = .next r) :
    ∃ r', exec (.shf (.pos t)) s' = .next r' ∧ r'.dout = s.ports.din ∧ r'.olen = 64#7 := by
  rw [exec_shf_onBlocks hu hlen] at hr
  cases hr
  refine ⟨_, exec_shf_onBlocks ht hlen', ?_, rfl⟩
  simp only [hdin, complete_dout, Result.of, bus_block, h.perm_perm]

/-- Settles O20, in both orders. -/
theorem ipInverseUndoesIp : Obligations.IpInverseUndoesIp := by
  intro s s' t hlen hlen' hdin
  constructor
  · exact ipInverse_undoes_ip.exec_shf_shf ⟨rfl, rfl⟩ ⟨rfl, rfl⟩ hlen hlen' hdin
  · exact ip_undoes_ipInverse.exec_shf_shf ⟨rfl, rfl⟩ ⟨rfl, rfl⟩ hlen hlen' hdin

end Sys2Proof.Machine

/-! O15: the checks of 41_tables.md R145, table by table. -/

namespace Sys2Proof.Machine

theorem ip_perm_range : List.Perm (prom .ip) (List.range' 1 64) := by decide

theorem ipInverse_perm_range : List.Perm (prom .ipInverse) (List.range' 1 64) := by decide

theorem p_perm_range : List.Perm (prom .p) (List.range' 1 32) := by decide

/-- 41_tables.md R127. -/
theorem ip_closed_form : ∀ a < 8, ∀ b < 8, (prom .ip).getD (8 * a + b) 0 = 58 + 2 * (a % 4) - a / 4 - 8 * b := by decide

/-- 41_tables.md R129. -/
theorem e_closed_form : ∀ a < 8, ∀ b < 6, (prom .e).getD (6 * a + b) 0 = (4 * a + b + 31) % 32 + 1 := by decide

/-- `E` doubles the first and last bit of each group of four (41_tables.md R145). -/
theorem e_count : ∀ p ∈ List.range' 1 32, (prom .e).count p = if p % 4 = 0 ∨ p % 4 = 1 then 2 else 1 := by decide

/-- `PC1` reads no parity bit, and each other bit of the key at most once (41_tables.md R145). -/
theorem pc1_positions : (prom .pc1).Nodup ∧ (∀ p ∈ prom .pc1, 1 ≤ p ∧ p ≤ 63 ∧ p % 8 ≠ 0) ∧ 63 ∈ prom .pc1 := by decide

/-- `PC2` reads its first half from `C` and its second from `D` (41_tables.md R145). -/
theorem pc2_positions :
    (prom .pc2).Nodup ∧ (∀ p ∈ (prom .pc2).take 24, 1 ≤ p ∧ p ≤ 28) ∧ (∀ p ∈ (prom .pc2).drop 24, 29 ≤ p ∧ p ≤ 56) ∧
      56 ∈ prom .pc2 := by decide

/-- Every row of an S-box is a permutation of 0..15 (41_tables.md R145). -/
theorem srom_rows (b : SBox) : ∀ row < 4, List.Perm (((srom b).drop (16 * row)).take 16) (List.range 16) := by
  cases b <;> decide

theorem srom_length (b : SBox) : (srom b).length = 64 := by cases b <;> rfl

theorem srom_sum (b : SBox) : (srom b).sum = 480 := by cases b <;> rfl

/-- Settles O15, clause by clause. -/
theorem tablesHaveTheirStructure : Obligations.TablesHaveTheirStructure := by
  obtain ⟨hpc1, hpc1Range, hpc1Max⟩ := pc1_positions
  obtain ⟨hpc2, hpc2Low, hpc2High, hpc2Max⟩ := pc2_positions
  exact ⟨ip_perm_range, ipInverse_perm_range, fun i hi => (ip_undoes_ipInverse i hi).2, ip_closed_form, p_perm_range, rfl,
    e_closed_form, e_count, rfl, hpc1, hpc1Range, hpc1Max, rfl, hpc2, hpc2Low, hpc2High, hpc2Max,
    fun b _ => ⟨srom_length b, srom_sum b, srom_rows b⟩, ip_perm_range.sum_eq, ipInverse_perm_range.sum_eq, rfl,
    p_perm_range.sum_eq, rfl, rfl⟩

end Sys2Proof.Machine

/-! O22, O23, O24: loading the key, and the rotation amounts of the schedule (42_key_schedule.md R161 to R163). -/

namespace Sys2Proof.Machine

/-- Settles O22: the key register gets the operand as the ports carry it, and the completion has no data result. -/
theorem ldkLoadsTheKey : Obligations.LdkLoadsTheKey :=
  ⟨by decide, fun s => ⟨_, exec_ldk s, rfl, fun i _ => getMsbD_carried s.ports.din s.ports.dlen i⟩⟩

/-- All sixteen shifts together turn a half once around (42_key_schedule.md R162). -/
theorem cum_sixteen : cum 16 = 28 := rfl

/-- Settles O23: the amounts are closed constants; the last one is the length of a half. -/
theorem rotationAmountsAreTheTable : Obligations.RotationAmountsAreTheTable := by
  refine ⟨rfl, rfl, rfl, rfl, fun x => ?_⟩
  rw [cum_sixteen]
  exact rotl_length x

/-- The shifts after the first `n` rounds are what `CUM(n)` lacks of a whole turn. -/
theorem cum_add_sum_drop (n : Nat) : cum n + (shifts.drop n).sum = 28 :=
  List.sum_take_add_sum_drop shifts n

/-- Turning left and turning right by amounts that make up a whole turn is the same. -/
theorem rotl_eq_rotateRight {n a b : Nat} (x : BitVec n) (hab : a + b = n) : rotl x a = x.rotateRight b :=
  eq_of_bits fun i hi => by
    rw [getMsbD_rotl_of_lt x a hi, BitVec.getMsbD_rotateRight, decide_eq_true hi, Bool.true_and]
    rcases Nat.lt_or_ge b n with hb | hb
    · rw [Nat.mod_eq_of_lt hb]
      by_cases hib : i < b
      · rw [if_pos hib, show i + a = n + i - b by omega]
      · rw [if_neg hib, show i + a = i - b + n by omega, Nat.add_mod_right, Nat.mod_eq_of_lt (by omega)]
    · obtain ⟨rfl, rfl⟩ : a = 0 ∧ b = n := by omega
      rw [Nat.mod_self, if_neg (Nat.not_lt_zero i), Nat.add_zero, Nat.sub_zero, Nat.mod_eq_of_lt hi]

/-- Settles O24: the rounds a `Reverse` round leaves out are the shifts to turn back. -/
theorem reverseRotationIsARightRotation : Obligations.ReverseRotationIsARightRotation :=
  fun x r _ _ => rotl_eq_rotateRight x (cum_add_sum_drop (17 - r))

end Sys2Proof.Machine

/-! O25, O26: `DRK`, whose result is the round key of its round and direction. -/

namespace Sys2Proof.Machine

/-- The word of `DRK` as a number (30_encoding.md R78). -/
theorem encode_drk (d : Direction) (r : Idx) : encode (.drk d r) = BitVec.ofNat 16 (0x4000 + dirValue d + r.toNat) := by
  have hword : (encode (.drk d r)).toNat = 0x4000 + dirValue d + r.toNat := by simp [encode, toNat_wordOf, dirValue_eq]
  rw [← hword, BitVec.ofNat_toNat, BitVec.setWidth_eq]

theorem exec_drk_short {d : Direction} {r : Idx} {s : State} (hkey : s.klen.toNat < 64) :
    exec (.drk d r) s = .next (raise s (.invalidLength 64#7 s.klen) (encode (.drk d r))) := by
  rw [exec_drk, rk_short _ d hkey]
  rfl

theorem exec_drk_badRound {d : Direction} {r : Idx} {s : State} (hkey : 64 ≤ s.klen.toNat)
    (hround : r.toNat < 1 ∨ 16 < r.toNat) :
    exec (.drk d r) s = .next (raise s (.invalidRound (r.setWidth 7)) (encode (.drk d r))) := by
  rw [exec_drk, rk_badRound d hkey hround, BitVec.ofNat_toNat]
  rfl

theorem exec_drk_ok {d : Direction} {r : Idx} {s : State} (hkey : 64 ≤ s.klen.toNat) (hfirst : 1 ≤ r.toNat)
    (hlast : r.toNat ≤ 16) :
    exec (.drk d r) s = .next (complete s (Result.of (roundKey (perm 56 .pc1 s.key) (rot r.toNat d)))) := by
  rw [exec_drk, rk_ok d hkey hfirst hlast]
  rfl

/-- Settles O25, by the three answers of `RK`. -/
theorem drkDeliversTheRoundKey : Obligations.DrkDeliversTheRoundKey := by
  intro s d r
  rw [← encode_drk]
  rcases Nat.lt_or_ge s.klen.toNat 64 with hshort | hkey
  · exact ⟨_, exec_drk_short hshort, fun _ => faulted_raise .., by omega, by omega⟩
  by_cases hround : r.toNat < 1 ∨ 16 < r.toNat
  · exact ⟨_, exec_drk_badRound hkey hround, by omega, fun _ _ => faulted_raise .., by omega⟩
  · refine ⟨_, exec_drk_ok hkey (by omega) (by omega), by omega, by omega, fun _ _ _ => ?_⟩
    exact (completed_of s _).congr (getMsbD_roundKey s.key _)

/-- The rotation table read backwards (42_key_schedule.md R166). -/
theorem rot_reverse_symm {r : Nat} (hr : r ≤ 17) : rot (17 - r) .reverse = rot r .forward :=
  congrArg cum (Nat.sub_sub_self hr)

/-- Settles O26: the two rounds rotate by the same amount. -/
theorem keyScheduleIsSymmetric : Obligations.KeyScheduleIsSymmetric := by
  intro s r hkey hfirst hlast
  have hmirror : (17#6 - r).toNat = 17 - r.toNat := by bv_omega
  refine ⟨_, exec_drk_ok hkey hfirst hlast, ?_⟩
  rw [exec_drk_ok hkey (by omega) (by omega), hmirror, rot_reverse_symm (by omega)]

end Sys2Proof.Machine

/-! O27: every command but `LDK` reads the key through `RK` alone, and `RK` reads it through `PC1`, which takes no parity
position. -/

namespace Sys2Proof.Machine

/-! ### What a command reads of the key -/

/-- The key `key'`, `klen'` has the round keys of the key held in `s`, and the same faults of `RK`. -/
def SameRoundKeys (s : State) (key' : Bus) (klen' : Len) : Prop :=
  ∀ r d, rk key' klen' r d = rk s.key s.klen r d

/-- `v` is unchanged when the key is replaced by one with the same round keys. -/
def ReadsKeyThroughRk (v : State → Except Raise Result) : Prop :=
  ∀ s key' klen', SameRoundKeys s key' klen' → v { s with key := key', klen := klen' } = v s

theorem drkValue_readsKeyThroughRk (d : Direction) (r : Idx) :
    ReadsKeyThroughRk fun s => (rk s.key s.klen r.toNat d).map Result.of :=
  fun _ _ _ h => congrArg (Except.map Result.of) (h r.toNat d)

theorem frdValue_readsKeyThroughRk (d : Direction) (r : Idx) : ReadsKeyThroughRk (frdValue d r) := by
  intro s key' klen' h
  simp only [frdValue, h r.toNat d]
  rfl

theorem shfValue_readsKeyThroughRk (t : Table) : ReadsKeyThroughRk (shfValue t) :=
  fun s key' klen' _ => shfValue_with_key t s key' klen'

theorem cryptRounds_congr {s : State} {key' : Bus} {klen' : Len} (h : SameRoundKeys s key' klen') (d : Direction)
    (n : Nat) (halves : Halves) : cryptRounds key' klen' d n halves = cryptRounds s.key s.klen d n halves := by
  induction n with
  | zero => rfl
  | succ n ih => simp only [cryptRounds, ih, h (n + 1) d]

/-- The value of a whole `ENC` or `DEC` (43_feistel.md R188, R189). -/
def cryptValue (d : Direction) (s : State) : Except Raise Result :=
  if s.operandLen ≠ 64#7 then .error (.invalidLength 64#7 s.operandLen)
  else (crypt s.key s.klen d s.operand).map Result.of

theorem execCommand_enc (s : State) : execCommand .enc s = .next (settle s (cryptWord .forward) (cryptValue .forward s)) := rfl

theorem execCommand_dec (s : State) : execCommand .dec s = .next (settle s (cryptWord .reverse) (cryptValue .reverse s)) := rfl

theorem cryptValue_readsKeyThroughRk (d : Direction) : ReadsKeyThroughRk (cryptValue d) := by
  intro s key' klen' h
  simp only [cryptValue, crypt, cryptRounds_congr h]
  rfl

theorem execCommand_shf (t : Table) (s : State) : execCommand (.shf t) s = exec (.shf t) s := by
  rcases t with t | b <;> [cases t; cases b] <;> rfl

theorem execCommand_trd (t : Table) (k : Idx) (s : State) : execCommand (.trd t k) s = exec (.trd t k) s := by
  rcases t with t | b <;> [cases t; cases b] <;> rfl

/-- Every command but `LDK` settles a value that reads the key through `RK` alone. -/
theorem execCommand_settles {i : Instr} (hi : i ≠ .ldk) :
    ∃ w v, ReadsKeyThroughRk v ∧ ∀ s, execCommand i s = .next (settle s w (v s)) := by
  rcases instr_shape i with rfl | rfl | rfl | ⟨d, r, rfl⟩ | ⟨d, r, rfl⟩ | ⟨t, rfl⟩ | ⟨t, k, rfl⟩
  · exact absurd rfl hi
  · exact ⟨_, _, cryptValue_readsKeyThroughRk .forward, execCommand_enc⟩
  · exact ⟨_, _, cryptValue_readsKeyThroughRk .reverse, execCommand_dec⟩
  · exact ⟨_, _, drkValue_readsKeyThroughRk d r, fun s => exec_drk d r s⟩
  · exact ⟨_, _, frdValue_readsKeyThroughRk d r, fun s => exec_frd d r s⟩
  · exact ⟨_, _, shfValue_readsKeyThroughRk t, fun s => (execCommand_shf t s).trans (exec_shf t s)⟩
  · exact ⟨_, fun _ => trdValue t k, fun _ _ _ _ => rfl, fun s => (execCommand_trd t k s).trans (exec_trd t k s)⟩

theorem settle_with_key (s : State) (key' : Bus) (klen' : Len) (w : Word) (x : Except Raise Result) :
    settle { s with key := key', klen := klen' } w x = { settle s w x with key := key', klen := klen' } := by
  cases x <;> rfl

/-- A command but `LDK` under another key with the same round keys does the same. -/
theorem execCommand_with_key {s t : State} {i : Instr} {key' : Bus} {klen' : Len} (hi : i ≠ .ldk)
    (hkeys : SameRoundKeys s key' klen') (ht : execCommand i s = .next t) :
    execCommand i { s with key := key', klen := klen' } = .next { t with key := key', klen := klen' } := by
  obtain ⟨w, v, hv, hsettle⟩ := execCommand_settles hi
  rw [hsettle] at ht
  cases ht
  rw [hsettle, hv s key' klen' hkeys, settle_with_key]

theorem execCommand_klen {s t : State} {i : Instr} (hi : i ≠ .ldk) (ht : execCommand i s = .next t) : t.klen = s.klen := by
  obtain ⟨w, v, _, hsettle⟩ := execCommand_settles hi
  rw [hsettle] at ht
  cases ht
  exact settle_klen s w (v s)

/-! ### Parity positions -/

/-- The two keys agree at every position that is no multiple of 8 (42_key_schedule.md R168). -/
def AgreeOffParity (key' key : Bus) : Prop := ∀ p < 64, (p + 1) % 8 ≠ 0 → key'.getMsbD p = key.getMsbD p

theorem pc1_entry_mem {j : Nat} (hj : j < 56) : (prom .pc1).getD j 0 ∈ prom .pc1 := by
  have hlen : j < (prom .pc1).length := hj
  rw [List.getD_eq_getElem _ _ hlen]
  exact List.getElem_mem hlen

/-- `PC1` reads the same of both keys. -/
theorem AgreeOffParity.perm_pc1 {key' key : Bus} (h : AgreeOffParity key' key) (klen : Len) :
    perm 56 .pc1 (masterKey key' klen) = perm 56 .pc1 (masterKey key klen) :=
  eq_of_bits fun j hj => by
    obtain ⟨_, hpositions, _⟩ := pc1_positions
    obtain ⟨hpos, hle, hparity⟩ := hpositions _ (pc1_entry_mem hj)
    have hbit := h ((prom .pc1).getD j 0 - 1) (by omega) (by rwa [Nat.sub_add_cancel hpos])
    simp only [getMsbD_perm, masterKey, getMsbD_carried, hbit]

theorem AgreeOffParity.rk_eq {key' key : Bus} (h : AgreeOffParity key' key) (klen : Len) (r : Nat) (d : Direction) :
    rk key' klen r d = rk key klen r d := by
  simp only [rk, h.perm_pc1 klen]

/-- Settles O27: keys that agree off the parity positions have the same round keys. -/
theorem parityBitsInfluenceNothing : Obligations.ParityBitsInfluenceNothing := by
  intro s t i key' hi hagree ht
  have hkeys : SameRoundKeys s key' s.klen := AgreeOffParity.rk_eq hagree s.klen
  rw [execCommand_with_key hi hkeys ht, ← execCommand_klen hi ht]

end Sys2Proof.Machine

/-! O31: one bit of the round function, read backwards through `P`, the S-boxes and `E` (43_feistel.md R180). -/

namespace Sys2Proof.Machine

/-- A six-bit number reads only the first six of its bits. -/
theorem sixBits_congr {x y : Nat → Bool} (h : ∀ m < 6, x m = y m) : sixBits x = sixBits y := by
  simp only [sixBits, h 0 (by decide), h 1 (by decide), h 2 (by decide), h 3 (by decide), h 4 (by decide),
    h 5 (by decide)]

/-- Settles O31: output bit `j` is the bit `P` selects, and its group lies inside the 48 bits of `E(right) ^ k`. -/
theorem roundFunctionByBits : Obligations.RoundFunctionByBits := by
  intro right k j hj
  have hq : (prom .p).getD j 0 - 1 < 32 := prom_position_lt (t := .p) hj
  rw [feistel, getMsbD_perm, decide_eq_true hj, Bool.true_and, getMsbD_substitute _ hq, feistelBit]
  congr 2
  refine sixBits_congr fun m hm => ?_
  rw [BitVec.getMsbD_xor, getMsbD_perm, decide_eq_true (by omega), Bool.true_and]

end Sys2Proof.Machine

/-! The halves of a block: joining, splitting and exchanging them, and the one fact the cipher's inverse rests on, that
a round undoes itself once the halves are exchanged (43_feistel.md R184, R186). -/

namespace Sys2Proof.Machine

/-- A 64-bit operand is `DIN` itself (10_state.md R27). -/
theorem operand_of_block {s : State} (hlen : s.ports.dlen = 64#7) : s.operand = s.ports.din :=
  operand_of_le (by rw [hlen]; decide)

/-- The 64-bit block of two halves, left one first. -/
def Halves.block (h : Halves) : BitVec 64 := h.left ++ h.right

/-- The halves exchanged (43_feistel.md R186). -/
def Halves.swap (h : Halves) : Halves := ⟨h.right, h.left⟩

@[simp] theorem swap_swap (h : Halves) : h.swap.swap = h := rfl

@[simp] theorem splitBlock_block (h : Halves) : splitBlock h.block = h := splitBlock_join h.left h.right

@[simp] theorem block_splitBlock (b : BitVec 64) : (splitBlock b).block = b := join_splitBlock b

theorem swapHalves_eq (b : Bus) : swapHalves b = (splitBlock b).swap.block := by
  rw [splitBlock_eq]; rfl

theorem joinBlock_eq (h : Halves) : joinBlock h = perm 64 .ipInverse h.swap.block := rfl

/-- A round undoes itself once the halves are exchanged (43_feistel.md R184). -/
theorem round_swap_round (h : Halves) (k : BitVec 48) : round (round h k).swap k = h.swap := by
  simp only [round, Halves.swap, BitVec.xor_assoc, BitVec.xor_self, BitVec.xor_zero]

/-- The round key of a round in 1..16 under a key of 64 bits or more (42_key_schedule.md R164). -/
def keyOf (key : Bus) (r : Nat) (d : Direction) : BitVec 48 := roundKey (perm 56 .pc1 key) (rot r d)

theorem rk_eq_keyOf {key : Bus} {klen : Len} {r : Nat} (d : Direction) (hkey : 64 ≤ klen.toNat) (hfirst : 1 ≤ r)
    (hlast : r ≤ 16) : rk key klen r d = .ok (keyOf key r d) := rk_ok d hkey hfirst hlast

theorem IsRoundKey.eq_keyOf {key : Bus} {r : Nat} {d : Direction} {k : BitVec 48} (h : IsRoundKey key r d k) :
    k = keyOf key r d := h.eq

end Sys2Proof.Machine

/-! O32, O33: `FRD`, one round with the swap and its faults in their order (43_feistel.md R186). -/

namespace Sys2Proof.Machine

/-- The word of `FRD` as a number (30_encoding.md R78). -/
theorem encode_frd (d : Direction) (r : Idx) : encode (.frd d r) = BitVec.ofNat 16 (0x5000 + dirValue d + r.toNat) := by
  have hword : (encode (.frd d r)).toNat = 0x5000 + dirValue d + r.toNat := by simp [encode, toNat_wordOf, dirValue_eq]
  rw [← hword, BitVec.ofNat_toNat, BitVec.setWidth_eq]

theorem exec_frd_badLength {d : Direction} {r : Idx} {s : State} (hlen : s.ports.dlen ≠ 64#7) :
    exec (.frd d r) s = .next (raise s (.invalidLength 64#7 s.ports.dlen) (encode (.frd d r))) := by
  rw [exec_frd, frdValue, State.operandLen, if_pos hlen, settle_error]

/-- With a 64-bit block `FRD` ends as `RK` answers: in its fault, or in one round. -/
theorem exec_frd_rk {d : Direction} {r : Idx} {s : State} (hlen : s.ports.dlen = 64#7) :
    exec (.frd d r) s = .next (settle s (encode (.frd d r))
      ((rk s.key s.klen r.toNat d).map fun k => Result.of (round (splitBlock s.ports.din) k).block)) := by
  rw [exec_frd, frdValue, State.operandLen, if_neg (not_not.mpr hlen), operand_of_block hlen]
  cases rk s.key s.klen r.toNat d <;> rfl

theorem exec_frd_short {d : Direction} {r : Idx} {s : State} (hlen : s.ports.dlen = 64#7) (hkey : s.klen.toNat < 64) :
    exec (.frd d r) s = .next (raise s (.invalidLength 64#7 s.klen) (encode (.frd d r))) := by
  rw [exec_frd_rk hlen, rk_short _ d hkey]
  rfl

theorem exec_frd_badRound {d : Direction} {r : Idx} {s : State} (hlen : s.ports.dlen = 64#7) (hkey : 64 ≤ s.klen.toNat)
    (hround : r.toNat < 1 ∨ 16 < r.toNat) :
    exec (.frd d r) s = .next (raise s (.invalidRound (r.setWidth 7)) (encode (.frd d r))) := by
  rw [exec_frd_rk hlen, rk_badRound d hkey hround, BitVec.ofNat_toNat]
  rfl

theorem exec_frd_ok {d : Direction} {r : Idx} {s : State} (hlen : s.ports.dlen = 64#7) (hkey : 64 ≤ s.klen.toNat)
    (hfirst : 1 ≤ r.toNat) (hlast : r.toNat ≤ 16) :
    exec (.frd d r) s =
      .next (complete s (Result.of (round (splitBlock s.ports.din) (keyOf s.key r.toNat d)).block)) := by
  rw [exec_frd_rk hlen, rk_eq_keyOf d hkey hfirst hlast]
  rfl

/-- Settles O32, by the four ways `FRD` can end. -/
theorem frdRunsOneRound : Obligations.FrdRunsOneRound := by
  intro s d r
  rw [← encode_frd]
  by_cases hlen : s.ports.dlen = 64#7
  swap
  · exact ⟨_, exec_frd_badLength hlen, fun _ => faulted_raise .., fun h => absurd h hlen, fun h => absurd h hlen,
      fun h => absurd h hlen⟩
  rcases Nat.lt_or_ge s.klen.toNat 64 with hshort | hkey
  · exact ⟨_, exec_frd_short hlen hshort, fun h => absurd hlen h, fun _ _ => faulted_raise .., by omega, by omega⟩
  by_cases hround : r.toNat < 1 ∨ 16 < r.toNat
  · exact ⟨_, exec_frd_badRound hlen hkey hround, fun h => absurd hlen h, by omega, fun _ _ _ => faulted_raise ..,
      by omega⟩
  · refine ⟨_, exec_frd_ok hlen hkey (by omega) (by omega), fun h => absurd hlen h, by omega, by omega, ?_⟩
    intro _ _ _ _ k hk
    rw [← hk.eq_keyOf, splitBlock_eq]
    exact completed_of s _

/-- Settles O33: the second `FRD` runs the same round on the exchanged halves of what the first one left. -/
theorem oneRoundUndoesItself : Obligations.OneRoundUndoesItself := by
  intro s s' t d r hlen hkey hfirst hlast ht hsameKey hsameLen hlen' hdin'
  rw [exec_frd_ok hlen hkey hfirst hlast] at ht
  cases ht
  refine ⟨_, exec_frd_ok hlen' (hsameLen ▸ hkey) hfirst hlast, ?_, rfl⟩
  simp only [hdin', hsameKey, complete_dout, Result.of, bus_block, swapHalves_eq, splitBlock_block, round_swap_round]

end Sys2Proof.Machine

/-! O34, O35, O36, O49: the steps of a run (43_feistel.md R190, R191, R193). -/

namespace Sys2Proof.Machine

/-! ### The accept step of a run -/

/-- The command that runs in a direction (43_feistel.md R188, R189). -/
def cryptInstr : Direction → Instr
  | .forward => .enc
  | .reverse => .dec

theorem encode_cryptInstr (d : Direction) : encode (cryptInstr d) = cryptWord d := by cases d <;> rfl

theorem exec_cryptInstr (d : Direction) (s : State) : exec (cryptInstr d) s = .next (acceptCrypt d s) := by
  cases d <;> rfl

theorem cryptWord_eq (d : Direction) : cryptWord d = if d = .forward then 0x2000#16 else 0x3000#16 := by
  cases d <;> rfl

theorem acceptCrypt_badLength {d : Direction} {s : State} (hlen : s.ports.dlen ≠ 64#7) :
    acceptCrypt d s = raise s (.invalidLength 64#7 s.ports.dlen) (cryptWord d) := by
  rcases acceptCrypt_cases d s with ⟨_, h⟩ | ⟨h, _⟩
  · exact h
  · exact absurd h hlen

theorem acceptCrypt_ok {d : Direction} {s : State} (hlen : s.ports.dlen = 64#7) : acceptCrypt d s = startRun d s := by
  rcases acceptCrypt_cases d s with ⟨h, _⟩ | ⟨_, h⟩
  · exact absurd hlen h
  · exact h

/-- The left half a run starts from, bit by bit (43_feistel.md R187, 41_tables.md R127). -/
theorem getMsbD_left_split_ip (b : BitVec 64) {i : Nat} (hi : i < 32) :
    (splitBlock (perm 64 .ip b)).left.getMsbD i = b.getMsbD ((prom .ip).getD i 0 - 1) := by
  have hin : i < 64 := by omega
  simp only [splitBlock, getMsbD_slice, getMsbD_perm, hi, hin, Nat.zero_add, decide_true, Bool.true_and]

/-- The right half a run starts from, bit by bit. -/
theorem getMsbD_right_split_ip (b : BitVec 64) {i : Nat} (hi : i < 32) :
    (splitBlock (perm 64 .ip b)).right.getMsbD i = b.getMsbD ((prom .ip).getD (32 + i) 0 - 1) := by
  have hin : 32 + i < 64 := by omega
  simp only [splitBlock, getMsbD_slice, getMsbD_perm, hi, hin, decide_true, Bool.true_and]

/-- `BUSY` 1, `DONE` 0 and the old `ERRK` (10_state.md R25, log 2). -/
theorem stOf_running (s : State) : stOf true false s.errk = 0b10#2 ++ s.st.extractLsb' 0 2 := rfl

/-- The accept step of `ENC` and `DEC`, whole (43_feistel.md R190). -/
theorem exec_cryptInstr_spec (d : Direction) (s : State) :
    ∃ t, exec (cryptInstr d) s = .next t ∧
      (s.ports.dlen ≠ 64#7 → Faulted s t 1#2 64#7 s.ports.dlen (cryptWord d)) ∧
      (s.ports.dlen = 64#7 →
        t = { s with l := t.l, r := t.r, dirq := d, rnd := 1#5, ph := .run, st := 0b10#2 ++ s.st.extractLsb' 0 2 } ∧
        ∀ i < 32, t.l.getMsbD i = s.ports.din.getMsbD ((prom .ip).getD i 0 - 1) ∧
          t.r.getMsbD i = s.ports.din.getMsbD ((prom .ip).getD (32 + i) 0 - 1)) := by
  refine ⟨_, exec_cryptInstr d s, fun hlen => ?_, fun hlen => ?_⟩
  · rw [acceptCrypt_badLength hlen]
    exact faulted_raise ..
  · rw [acceptCrypt_ok hlen]
    refine ⟨by rw [← stOf_running]; rfl, fun i hi => ?_⟩
    rw [← operand_of_block hlen]
    exact ⟨getMsbD_left_split_ip s.operand hi, getMsbD_right_split_ip s.operand hi⟩

/-- Settles O34, in both directions. -/
theorem encAndDecStartARun : Obligations.EncAndDecStartARun := by
  intro s x hx
  simp only [List.mem_cons, List.not_mem_nil, or_false] at hx
  rcases hx with rfl | rfl
  · exact exec_cryptInstr_spec .forward s
  · exact exec_cryptInstr_spec .reverse s

/-! ### The round step -/

theorem roundStep_short {s : State} (hkey : s.klen.toNat < 64) :
    roundStep s = raise s (.invalidLength 64#7 s.klen) (cryptWord s.dirq) := by
  rw [roundStep, rk_short _ _ hkey]

/-- A round before the last goes on with the next halves. -/
theorem roundStep_next {s : State} (hkey : 64 ≤ s.klen.toNat) (hfirst : 1 ≤ s.rnd.toNat) (hlast : s.rnd.toNat < 16) :
    roundStep s = { s with
      l := (round ⟨s.l, s.r⟩ (keyOf s.key s.rnd.toNat s.dirq)).left
      r := (round ⟨s.l, s.r⟩ (keyOf s.key s.rnd.toNat s.dirq)).right
      rnd := s.rnd + 1#5 } := by
  rw [roundStep, rk_eq_keyOf _ hkey hfirst (by omega)]
  exact if_pos hlast

/-- Round 16 delivers the joined halves through `IP_INVERSE`. -/
theorem roundStep_last {s : State} (hkey : 64 ≤ s.klen.toNat) (hlast : s.rnd.toNat = 16) :
    roundStep s = complete s (Result.of (joinBlock (round ⟨s.l, s.r⟩ (keyOf s.key s.rnd.toNat s.dirq)))) := by
  rw [roundStep, rk_eq_keyOf _ hkey (by omega) (by omega)]
  exact if_neg (by rw [hlast]; decide)

/-- A completion with the joined halves, bit by bit (43_feistel.md R185). -/
theorem completed_joinBlock (s : State) (h : Halves) :
    Completed s (complete s (Result.of (joinBlock h))) 64 fun i =>
      (h.right ++ h.left).getMsbD ((prom .ipInverse).getD i 0 - 1) :=
  (completed_of s _).congr fun i hi => by rw [joinBlock, getMsbD_perm, decide_eq_true hi, Bool.true_and]

/-- In a checked run only round 1 can meet a short key (43_feistel.md R191). -/
theorem KeyChecked.first_of_short {s : State} (h : KeyChecked s) (hrun : s.ph = .run) (hfirst : 1 ≤ s.rnd.toNat)
    (hshort : s.klen.toNat < 64) : s.rnd.toNat = 1 := by
  by_contra hne
  have := h hrun (by omega)
  omega

/-- Settles O35, by the key and the round. -/
theorem roundStepRunsOneRound : Obligations.RoundStepRunsOneRound := by
  intro s hrst hrun hfirst hlast
  refine ⟨_, step_of_run hrst hrun, fun hshort => ?_, fun hkey k hk => ?_,
    fun hchecked => hchecked.first_of_short hrun hfirst⟩
  · rw [roundStep_short hshort, ← cryptWord_eq]
    exact faulted_raise { s with inputs := s.inputs.tail } (.invalidLength 64#7 s.klen) (cryptWord s.dirq)
  · rw [hk.eq_keyOf]
    constructor
    · intro hbefore
      rw [roundStep_next hkey hfirst hbefore]
      rfl
    · intro hend
      rw [roundStep_last hkey hend]
      exact completed_joinBlock { s with inputs := s.inputs.tail } _

/-- `ST` after an `InvalidLength` (10_state.md R25). -/
theorem stOf_invalidLength (e g : Len) : stOf false true (Raise.invalidLength e g).errk = 0b0101#4 := by
  rw [Raise.errk]; decide

theorem toNat_rnd_succ {x : BitVec 5} (hx : x.toNat < 16) : (x + 1#5).toNat = x.toNat + 1 := by bv_omega

/-- Settles O36, by the key and the round; `KeyChecked` leaves the short key to round 1. -/
theorem sequencerWalksItsRounds : Obligations.SequencerWalksItsRounds := by
  intro s t hinv hchecked hrst hrun hstep
  obtain ⟨hfirst, hlast⟩ := hinv.run_iff_round.mp hrun
  rw [step_of_run hrst hrun] at hstep
  cases hstep
  rcases Nat.lt_or_ge s.klen.toNat 64 with hshort | hkey
  · rw [roundStep_short hshort]
    exact .inr (.inr ⟨hchecked.first_of_short hrun hfirst hshort, hshort, rfl, rfl, stOf_invalidLength ..⟩)
  rcases Nat.lt_or_ge s.rnd.toNat 16 with hbefore | hend
  · rw [roundStep_next hkey hfirst hbefore]
    exact .inl ⟨hbefore, hkey, hrun, toNat_rnd_succ hbefore, rfl⟩
  · have h16 : s.rnd.toNat = 16 := by omega
    rw [roundStep_last hkey h16]
    exact .inr (.inl ⟨h16, hkey, rfl, rfl, rfl⟩)

/-! ### What every step keeps of the key check -/

theorem StepEffect.keyChecked {s u : State} (e : StepEffect s u) (h : KeyChecked s) : KeyChecked u := by
  cases e with
  | stay => exact h
  | start => exact fun _ hpast => absurd hpast (by simp)
  | nextRound _ hkey => exact fun _ _ => hkey
  | reset => exact fun hrun _ => by cases hrun
  | loadKey => exact fun hrun _ => by cases hrun
  | deliver => exact fun hrun _ => by cases hrun
  | fault => exact fun hrun _ => by cases hrun

/-- Settles O49, from the effects of a step: a run starts in round 1, and a round step that goes on has a usable key. -/
theorem everyStepKeepsTheKeyChecked : Obligations.EveryStepKeepsTheKeyChecked := by
  intro s t h hstep
  obtain ⟨u, e, rfl⟩ := effect_of_step hstep
  exact e.keyChecked h

end Sys2Proof.Machine

/-! `CRYPT` with a usable key (43_feistel.md R187): the halves after each round as a plain recursion, and its inverse. The
rounds of the other direction, started from the exchanged halves of the last round, meet the keys in the opposite order and
walk the rounds back. -/

namespace Sys2Proof.Machine

/-- The halves after `n` rounds of a direction under a key (43_feistel.md R187). -/
def halvesAfter (key : Bus) (d : Direction) (h : Halves) : Nat → Halves
  | 0 => h
  | n + 1 => round (halvesAfter key d h n) (keyOf key (n + 1) d)

/-- A usable key never faults in `CRYPT`'s loop, and the loop's halves are `halvesAfter`. -/
theorem cryptRounds_eq {key : Bus} {klen : Len} (d : Direction) (hkey : 64 ≤ klen.toNat) (h : Halves) {n : Nat}
    (hn : n ≤ 16) : cryptRounds key klen d n h = .ok (halvesAfter key d h n) := by
  induction n with
  | zero => rfl
  | succ n ih => exact cryptRounds_succ (ih (by omega)) (rk_eq_keyOf d hkey (by omega) hn)

/-- The sixteen rounds of a block (43_feistel.md R187). -/
def lastHalves (key : Bus) (d : Direction) (b : BitVec 64) : Halves := halvesAfter key d (splitBlock (perm 64 .ip b)) 16

/-- A sequence that starts from `IP` of the block and goes on by the rounds of the direction holds their halves. -/
theorem eq_lastHalves {key : Bus} {d : Direction} {b : BitVec 64} {x : Nat → Halves}
    (hstart : x 0 = splitBlock (perm 64 .ip b)) (hnext : ∀ n < 16, x (n + 1) = round (x n) (keyOf key (n + 1) d)) :
    x 16 = lastHalves key d b := by
  have hhalves : ∀ n ≤ 16, x n = halvesAfter key d (splitBlock (perm 64 .ip b)) n := by
    intro n
    induction n with
    | zero => exact fun _ => hstart
    | succ n ih =>
      intro hn
      rw [hnext n (by omega), ih (by omega), halvesAfter]
  exact hhalves 16 le_rfl

theorem crypt_ok {key : Bus} {klen : Len} (d : Direction) (hkey : 64 ≤ klen.toNat) (b : BitVec 64) :
    crypt key klen d b = .ok (joinBlock (lastHalves key d b)) := by
  rw [crypt, cryptRounds_eq d hkey _ le_rfl]
  rfl

theorem crypt_short {key : Bus} {klen : Len} (d : Direction) (hkey : klen.toNat < 64) (b : BitVec 64) :
    crypt key klen d b = .error (.invalidLength 64#7 klen) := by
  rw [crypt, cryptRounds_short key d hkey _ 15]
  rfl

/-! ### The inverse -/

/-- The direction that undoes a direction (43_feistel.md R194). -/
def otherDir : Direction → Direction
  | .forward => .reverse
  | .reverse => .forward

/-- The other direction uses the round keys in the opposite order (42_key_schedule.md R166). -/
theorem keyOf_otherDir (key : Bus) (d : Direction) {r : Nat} (hr : r ≤ 17) :
    keyOf key (17 - r) (otherDir d) = keyOf key r d := by
  cases d with
  | forward => exact congrArg (roundKey _) (rot_reverse_symm hr)
  | reverse => rfl

/-- After `n` rounds back from the exchanged halves, the halves are those of round `16 - n`, exchanged. -/
theorem halvesAfter_otherDir (key : Bus) (d : Direction) (h : Halves) {n : Nat} (hn : n ≤ 16) :
    halvesAfter key (otherDir d) (halvesAfter key d h 16).swap n = (halvesAfter key d h (16 - n)).swap := by
  induction n with
  | zero => rfl
  | succ n ih =>
    obtain ⟨m, hm⟩ : ∃ m, 16 - n = m + 1 := ⟨15 - n, by omega⟩
    have hkey : keyOf key (n + 1) (otherDir d) = keyOf key (m + 1) d := by
      rw [← keyOf_otherDir key d (by omega : m + 1 ≤ 17), show 17 - (m + 1) = n + 1 by omega]
    rw [halvesAfter, ih (by omega), hm, hkey, halvesAfter, round_swap_round, show 16 - (n + 1) = m by omega]

/-- Deciphering recovers the block, in both directions (43_feistel.md R194). -/
theorem join_lastHalves_otherDir (key : Bus) (d : Direction) (b : BitVec 64) :
    joinBlock (lastHalves key (otherDir d) (joinBlock (lastHalves key d b))) = b := by
  rw [lastHalves, joinBlock_eq (lastHalves key d b), ip_undoes_ipInverse.perm_perm, splitBlock_block, lastHalves,
    halvesAfter_otherDir key d _ le_rfl, joinBlock_eq, swap_swap]
  simp only [Nat.sub_self, halvesAfter, block_splitBlock]
  exact ipInverse_undoes_ip.perm_perm b

end Sys2Proof.Machine

/-! The command level of `ENC` and `DEC` (10_state.md R31, 43_feistel.md R188, R189), and O42. -/

namespace Sys2Proof.Machine

theorem execCommand_cryptInstr (d : Direction) (s : State) :
    execCommand (cryptInstr d) s = .next (cryptCommand d s) := by cases d <;> rfl

theorem cryptCommand_badLength {d : Direction} {s : State} (hlen : s.ports.dlen ≠ 64#7) :
    cryptCommand d s = raise s (.invalidLength 64#7 s.ports.dlen) (cryptWord d) := by
  rw [cryptCommand, State.operandLen, if_pos hlen, settle_error]

theorem cryptCommand_short {d : Direction} {s : State} (hlen : s.ports.dlen = 64#7) (hkey : s.klen.toNat < 64) :
    cryptCommand d s = raise s (.invalidLength 64#7 s.klen) (cryptWord d) := by
  rw [cryptCommand, State.operandLen, if_neg (not_not.mpr hlen), crypt_short d hkey]
  rfl

theorem cryptCommand_ok {d : Direction} {s : State} (hlen : s.ports.dlen = 64#7) (hkey : 64 ≤ s.klen.toNat) :
    cryptCommand d s = complete s (Result.of (joinBlock (lastHalves s.key d s.ports.din))) := by
  rw [cryptCommand, State.operandLen, if_neg (not_not.mpr hlen), crypt_ok d hkey, operand_of_block hlen]
  rfl

/-- A state that holds the key of `s` and is presented the block `b`. -/
def withBlock (s : State) (b : Bus) : State := { s with inputs := [⟨false, false, 0#16, b, 64#7⟩] }

/-- `FRD` of round `n + 1` on a block leaves the block of the next halves. -/
theorem exec_frd_withBlock {s t : State} {d : Direction} {b : Bus} {n : Nat} (hn : n < 16) (hkey : 64 ≤ s.klen.toNat)
    (ht : exec (.frd d (BitVec.ofNat 6 (n + 1))) (withBlock s b) = .next t) :
    splitBlock t.dout = round (splitBlock b) (keyOf s.key (n + 1) d) := by
  have hround : (BitVec.ofNat 6 (n + 1)).toNat = n + 1 := Nat.mod_eq_of_lt (by omega)
  rw [exec_frd_ok (s := withBlock s b) rfl hkey (by omega) (by omega), hround] at ht
  cases ht
  rw [complete_dout, Result.of, bus_block, splitBlock_block]
  rfl

/-- Settles O42: the sequence of blocks holds `CRYPT`'s halves after each round. -/
theorem sixteenFrdAreTheWholeCommand : Obligations.SixteenFrdAreTheWholeCommand := by
  intro s d x hlen hkey hx hfrd
  have hstart : x 0 = perm 64 .ip s.ports.din :=
    eq_of_bits fun i hi => by rw [hx i hi, getMsbD_perm, decide_eq_true hi, Bool.true_and]
  have hnext : ∀ n < 16, splitBlock (x (n + 1)) = round (splitBlock (x n)) (keyOf s.key (n + 1) d) := by
    intro n hn
    obtain ⟨t, ht, hdout⟩ := hfrd n hn (withBlock s (x n)) rfl rfl rfl rfl
    rw [← hdout, exec_frd_withBlock hn hkey ht]
  have hlast : splitBlock (x 16) = lastHalves s.key d s.ports.din :=
    eq_lastHalves (x := fun n => splitBlock (x n)) (congrArg splitBlock hstart) hnext
  have hinstr : (if d = .forward then .enc else .dec) = cryptInstr d := by cases d <;> rfl
  refine ⟨_, hinstr ▸ execCommand_cryptInstr d s, ?_⟩
  rw [cryptCommand_ok hlen hkey, swapHalves_eq, hlast]
  exact completed_joinBlock s _

end Sys2Proof.Machine

/-! O39: the steps of a command. `ENC` and `DEC` walk their rounds; every other command is its accept step. -/

namespace Sys2Proof.Machine

/-! ### The number of steps -/

theorem latency_cryptWord (d : Direction) (dlen klen : Len) :
    latency (cryptWord d) dlen klen = if dlen ≠ 64#7 then 1 else if klen.toNat < 64 then 2 else 17 := by
  cases d <;> rfl

theorem latency_of_ne {w : Word} (dlen klen : Len) (hw : ∀ d, w ≠ cryptWord d) : latency w dlen klen = 1 :=
  if_neg (not_or.mpr ⟨hw .forward, hw .reverse⟩)

/-- The word of `ENC` or `DEC` is the word of no other command (30_encoding.md R74). -/
theorem decode_cryptWord (d : Direction) : decode (cryptWord d) = .ok (cryptInstr d) := by cases d <;> rfl

/-! ### The walk of `ENC` and `DEC` -/

/-- The host's sample after `n` steps without a reset. -/
theorem NoReset.rst_drop {m n : Nat} {s : State} (h : NoReset m s) (hn : n < m) {t : State}
    (ht : t.inputs = s.inputs.drop n) : t.ports.rst = false := by
  rw [ports_eq_getD, ht, List.getD_eq_getElem?_getD, List.getElem?_drop, ← List.getD_eq_getElem?_getD]
  exact h n hn

/-- `s`, which starts a run, `n` round steps later, with the halves `h`. -/
def afterRounds (s : State) (n : Nat) (h : Halves) : State :=
  { s with l := h.left, r := h.right, rnd := BitVec.ofNat 5 (n + 1), inputs := s.inputs.drop n }

theorem toNat_rnd_afterRounds (s : State) {n : Nat} (h : Halves) (hn : n < 16) : (afterRounds s n h).rnd.toNat = n + 1 :=
  Nat.mod_eq_of_lt (by omega)

/-- A round step before the last goes on to the next round. -/
theorem step_afterRounds {s : State} {n : Nat} (h : Halves) (hrun : s.ph = .run) (hkey : 64 ≤ s.klen.toNat)
    (hn : n < 15) (hrst : (afterRounds s n h).ports.rst = false) :
    step (afterRounds s n h) = .next (afterRounds s (n + 1) (round h (keyOf s.key (n + 1) s.dirq))) := by
  have hround := toNat_rnd_afterRounds s h (by omega : n < 16)
  rw [step_of_run hrst hrun, roundStep_next (s := afterRounds s n h) hkey (by omega) (by omega), hround]
  simp [afterRounds, advance, BitVec.ofNat_add]

/-- The sixteenth round step delivers the block. -/
theorem step_afterRounds_last {s : State} (h : Halves) (hrun : s.ph = .run) (hkey : 64 ≤ s.klen.toNat)
    (hrst : (afterRounds s 15 h).ports.rst = false) :
    step (afterRounds s 15 h) = .next { complete s (Result.of (joinBlock (round h (keyOf s.key 16 s.dirq)))) with
      inputs := s.inputs.drop 16 } := by
  have hround := toNat_rnd_afterRounds s h (by decide : 15 < 16)
  rw [step_of_run hrst hrun, roundStep_last (s := afterRounds s 15 h) hkey hround, hround]
  simp [afterRounds, advance, complete, finish]

/-- The first fifteen round steps of a run. -/
theorem run_afterRounds {s : State} (hrun : s.ph = .run) (hround : s.rnd = 1#5) (hkey : 64 ≤ s.klen.toNat)
    (hrst : NoReset 16 s) {n : Nat} (hn : n ≤ 15) :
    Host.Core.run Sys2Proof.core n s = .next (afterRounds s n (halvesAfter s.key s.dirq ⟨s.l, s.r⟩ n)) := by
  induction n with
  | zero => rw [run_zero, afterRounds, halvesAfter, ← hround]; rfl
  | succ n ih =>
    have hfree : (afterRounds s n (halvesAfter s.key s.dirq ⟨s.l, s.r⟩ n)).ports.rst = false :=
      hrst.rst_drop (by omega) rfl
    exact run_snoc (ih (by omega)) (step_afterRounds _ hrun hkey (by omega) hfree)

/-- The sixteen round steps of a run. -/
theorem run_rounds {s : State} (hrun : s.ph = .run) (hround : s.rnd = 1#5) (hkey : 64 ≤ s.klen.toNat)
    (hrst : NoReset 16 s) :
    Host.Core.run Sys2Proof.core 16 s =
      .next { complete s (Result.of (joinBlock (halvesAfter s.key s.dirq ⟨s.l, s.r⟩ 16))) with
        inputs := s.inputs.drop 16 } :=
  run_snoc (run_afterRounds hrun hround hkey hrst le_rfl)
    (step_afterRounds_last _ hrun hkey (hrst.rst_drop (by decide) rfl))

/-- The accept step of `ENC` or `DEC`. -/
theorem step_accept_crypt {s : State} {d : Direction} (hacc : Accepts s) (hcmd : s.ports.cmd = cryptWord d) :
    step s = .next (advance (acceptCrypt d s)) := by
  rw [step_of_decode hacc (hcmd ▸ decode_cryptWord d), exec_cryptInstr, advanceOutcome]

/-- Seventeen steps of `ENC` or `DEC` with a 64-bit block and a usable key (43_feistel.md R192). -/
theorem run_crypt_ok {s : State} {d : Direction} (hacc : Accepts s) (hcmd : s.ports.cmd = cryptWord d)
    (hlen : s.ports.dlen = 64#7) (hkey : 64 ≤ s.klen.toNat) (hrst : NoReset 17 s) :
    Host.Core.run Sys2Proof.core 17 s =
      .next { complete s (Result.of (joinBlock (lastHalves s.key d s.ports.din))) with inputs := s.inputs.drop 17 } := by
  have hrst' : NoReset 16 (advance (startRun d s)) := hrst.advance.of_inputs rfl
  rw [run_succ_of_next (step_accept_crypt hacc hcmd), acceptCrypt_ok hlen,
    run_rounds (s := advance (startRun d s)) rfl rfl hkey hrst', lastHalves, ← operand_of_block hlen]
  simp [startRun, advance, complete, finish]

/-- Two steps of `ENC` or `DEC` with a 64-bit block and a short key. -/
theorem run_crypt_short {s : State} {d : Direction} (hacc : Accepts s) (hcmd : s.ports.cmd = cryptWord d)
    (hlen : s.ports.dlen = 64#7) (hkey : s.klen.toNat < 64) (hrst : NoReset 2 s) :
    Host.Core.run Sys2Proof.core 2 s =
      .next { raise s (.invalidLength 64#7 s.klen) (cryptWord d) with inputs := s.inputs.drop 2 } := by
  have hrst' : (advance (startRun d s)).ports.rst = false := (hrst.advance.of_inputs rfl).rst
  rw [run_succ_of_next (step_accept_crypt hacc hcmd), acceptCrypt_ok hlen,
    run_succ_of_next (step_of_run hrst' rfl), roundStep_short (s := advance (startRun d s)) hkey, run_zero,
    ← List.tail_drop, List.drop_one]
  rfl

/-- `ENC` and `DEC` end where the command level says. -/
theorem run_crypt {s : State} {d : Direction} (hacc : Accepts s) (hcmd : s.ports.cmd = cryptWord d)
    (hrst : NoReset (latency (cryptWord d) s.ports.dlen s.klen) s) :
    Host.Core.run Sys2Proof.core (latency (cryptWord d) s.ports.dlen s.klen) s =
      .next { cryptCommand d s with inputs := s.inputs.drop (latency (cryptWord d) s.ports.dlen s.klen) } := by
  rw [latency_cryptWord] at hrst ⊢
  by_cases hlen : s.ports.dlen = 64#7
  swap
  · rw [if_pos hlen, run_succ_of_next (step_accept_crypt hacc hcmd), acceptCrypt_badLength hlen, run_zero,
      cryptCommand_badLength hlen]
    simp [advance]
  rw [if_neg (not_not.mpr hlen)] at hrst ⊢
  rcases Nat.lt_or_ge s.klen.toNat 64 with hshort | hkey
  · rw [if_pos hshort] at hrst ⊢
    rw [run_crypt_short hacc hcmd hlen hshort hrst, cryptCommand_short hlen hshort]
  · rw [if_neg (Nat.not_lt.mpr hkey)] at hrst ⊢
    rw [run_crypt_ok hacc hcmd hlen hkey hrst, cryptCommand_ok hlen hkey]

/-- A command is `ENC` or `DEC`, or its command level is its accept step. -/
theorem command_cases (i : Instr) :
    (∃ d, i = cryptInstr d) ∨ ((∀ d, i ≠ cryptInstr d) ∧ ∀ s, execCommand i s = exec i s) := by
  by_cases henc : i = .enc
  · exact .inl ⟨.forward, henc⟩
  by_cases hdec : i = .dec
  · exact .inl ⟨.reverse, hdec⟩
  · refine .inr ⟨fun d => ?_, fun s => by rw [execCommand, if_neg henc, if_neg hdec]⟩
    cases d with
    | forward => exact henc
    | reverse => exact hdec

/-- Settles O39, for `ENC` and `DEC` by `run_crypt`, for every other command by its one step. -/
theorem stepsReachTheCommandLevel : Obligations.StepsReachTheCommandLevel := by
  intro s u i hacc hcmd hu hrst
  obtain ⟨hword, _⟩ := decode_eq_ok_iff.mp hcmd
  rcases command_cases i with ⟨d, rfl⟩ | ⟨hother, honce⟩
  · rw [execCommand_cryptInstr] at hu
    cases hu
    rw [encode_cryptInstr] at hword
    rw [← hword] at hrst ⊢
    exact run_crypt hacc hword.symm hrst
  · have hne : ∀ d, s.ports.cmd ≠ cryptWord d := by
      intro d h
      rw [h, decode_cryptWord] at hcmd
      cases hcmd
      exact hother d rfl
    rw [honce] at hu
    rw [latency_of_ne _ _ hne, run_succ_of_next (by rw [step_of_decode hacc hcmd, hu]; rfl), run_zero, advance,
      exec_inputs hu, List.drop_one]

end Sys2Proof.Machine

/-! O40, O41, O45: what the steps of a whole command leave, read off the command level. -/

namespace Sys2Proof.Machine

/-- Settles O40: the halves of the statement are those of `CRYPT`'s rounds. -/
theorem encAndDecAreSixteenRounds : Obligations.EncAndDecAreSixteenRounds := by
  intro s d k lh rh hacc hcmd hlen hkey hrst hk hstart hnext
  have hleft : lh 0 = (splitBlock (perm 64 .ip s.ports.din)).left := eq_of_bits fun i hi => by
    rw [(hstart i hi).1, getMsbD_left_split_ip s.ports.din hi]
  have hright : rh 0 = (splitBlock (perm 64 .ip s.ports.din)).right := eq_of_bits fun i hi => by
    rw [(hstart i hi).2, getMsbD_right_split_ip s.ports.din hi]
  have hround : ∀ n < 16, Halves.mk (lh (n + 1)) (rh (n + 1)) = round ⟨lh n, rh n⟩ (keyOf s.key (n + 1) d) := by
    intro n hn
    obtain ⟨hl, hr⟩ := hnext n hn
    rw [hl, hr, (hk (n + 1) (by omega) (by omega)).eq_keyOf, round]
  have hlast : Halves.mk (lh 16) (rh 16) = lastHalves s.key d s.ports.din :=
    eq_lastHalves (x := fun n => ⟨lh n, rh n⟩) (by rw [hleft, hright]) hround
  refine ⟨_, run_crypt_ok hacc (hcmd.trans (cryptWord_eq d).symm) hlen hkey hrst, ?_⟩
  rw [← hlast]
  exact completed_joinBlock { s with inputs := s.inputs.drop 17 } ⟨lh 16, rh 16⟩

/-- Settles O41: the second command runs the rounds of the first one back. -/
theorem decUndoesEncAndEncUndoesDec : Obligations.DecUndoesEncAndEncUndoesDec := by
  intro s s' t d hacc hacc' hcmd hcmd' hlen hlen' hkey hsameKey hsameLen hrst hrst' ht hdin'
  have hword' : s'.ports.cmd = cryptWord (otherDir d) := by rw [hcmd']; cases d <;> rfl
  rw [run_crypt_ok hacc (hcmd.trans (cryptWord_eq d).symm) hlen hkey hrst] at ht
  cases ht
  refine ⟨_, run_crypt_ok hacc' hword' hlen' (hsameLen ▸ hkey) hrst', ?_, rfl, rfl⟩
  simp only [hdin', hsameKey, complete_dout, Result.of, bus_block, join_lastHalves_otherDir]

/-! ### What a command reads -/

/-- The two states hold the same key and are presented the same operand. -/
structure SameOperands (s s' : State) : Prop where
  key : s'.key = s.key
  klen : s'.klen = s.klen
  operand : s'.operand = s.operand
  operandLen : s'.operandLen = s.operandLen

theorem sameMachine_complete {s s' : State} (res : Result) (hkey : s'.key = s.key) (hklen : s'.klen = s.klen) :
    SameMachine (complete s res) (complete s' res) := by
  simp [SameMachine, complete, finish, hkey, hklen]

theorem sameMachine_settle {s s' : State} (h : SameOperands s s') (w : Word) {x x' : Except Raise Result}
    (hx : x' = x) : SameMachine (settle s w x) (settle s' w x') := by
  subst hx
  cases x' <;> simp [SameMachine, settle, complete, raise, finish, h.key, h.klen]

theorem cryptValue_congr {s s' : State} (h : SameOperands s s') (d : Direction) : cryptValue d s' = cryptValue d s := by
  simp only [cryptValue, h.key, h.klen, h.operand, h.operandLen]

theorem frdValue_congr {s s' : State} (h : SameOperands s s') (d : Direction) (r : Idx) :
    frdValue d r s' = frdValue d r s := by
  simp only [frdValue, h.key, h.klen, h.operand, h.operandLen]

theorem shfValue_congr {s s' : State} (h : SameOperands s s') (t : Table) : shfValue t s' = shfValue t s := by
  cases t <;> simp only [shfValue, shfPos, shfBox, h.operand, h.operandLen]

/-- A command reads the key and the operand, and nothing else of the state. -/
theorem execCommand_sameMachine {s s' : State} (h : SameOperands s s') (i : Instr) :
    ∃ u u', execCommand i s = .next u ∧ execCommand i s' = .next u' ∧ SameMachine u u' := by
  rcases instr_shape i with rfl | rfl | rfl | ⟨d, r, rfl⟩ | ⟨d, r, rfl⟩ | ⟨t, rfl⟩ | ⟨t, k, rfl⟩
  · exact ⟨_, _, exec_ldk s, exec_ldk s', sameMachine_complete _ h.operand h.operandLen⟩
  · exact ⟨_, _, execCommand_enc s, execCommand_enc s', sameMachine_settle h _ (cryptValue_congr h .forward)⟩
  · exact ⟨_, _, execCommand_dec s, execCommand_dec s', sameMachine_settle h _ (cryptValue_congr h .reverse)⟩
  · exact ⟨_, _, exec_drk d r s, exec_drk d r s', sameMachine_settle h _ (by rw [h.key, h.klen])⟩
  · exact ⟨_, _, exec_frd d r s, exec_frd d r s', sameMachine_settle h _ (frdValue_congr h d r)⟩
  · refine ⟨_, _, (execCommand_shf t s).trans (exec_shf t s), (execCommand_shf t s').trans (exec_shf t s'), ?_⟩
    exact sameMachine_settle h _ (shfValue_congr h t)
  · refine ⟨_, _, (execCommand_trd t k s).trans (exec_trd t k s), (execCommand_trd t k s').trans (exec_trd t k s'), ?_⟩
    exact sameMachine_settle h _ rfl

/-- What the host drives later does not make two machines differ. -/
theorem SameMachine.of_inputs {u u' : State} (h : SameMachine u u') (q q' : List Ports) :
    SameMachine { u with inputs := q } { u' with inputs := q' } := by
  rw [SameMachine] at h ⊢
  rw [← h]

theorem sameOperands_of_ports {s s' : State} (hdin : s'.ports.din = s.ports.din) (hdlen : s'.ports.dlen = s.ports.dlen)
    (hkey : s'.key = s.key) (hklen : s'.klen = s.klen) : SameOperands s s' where
  key := hkey
  klen := hklen
  operand := by rw [State.operand, State.operand, hdin, hdlen]
  operandLen := hdlen

/-- The accept step of an illegal word. -/
theorem step_of_illegal {s : State} {e : Reject} (hacc : Accepts s) (herr : decode s.ports.cmd = .error e) :
    step s = .next (advance (raise s .illegalCommand s.ports.cmd)) := by
  obtain ⟨hrst, hidle, hvalid⟩ := hacc
  simp [step, engineStep, acceptStep, illegalWord, advanceOutcome, hrst, hidle, hvalid, herr]

/-- An illegal word takes one step (70_reset_and_hazards.md R259). -/
theorem latency_of_illegal {w : Word} {e : Reject} (dlen klen : Len) (herr : decode w = .error e) :
    latency w dlen klen = 1 :=
  latency_of_ne dlen klen fun d hw => by rw [hw, decode_cryptWord] at herr; cases herr

/-- Settles O45: an illegal word records itself, and a legal one ends at the command level of the same operands. -/
theorem outcomeDependsOnWordOperandAndKeyOnly : Obligations.OutcomeDependsOnWordOperandAndKeyOnly := by
  intro s s' n hacc hacc' hcmd hdin hdlen hkey hklen hn hrst hrst'
  have hsame : SameOperands s s' := sameOperands_of_ports hdin hdlen hkey hklen
  cases hdecode : decode s.ports.cmd with
  | error e =>
    rw [latency_of_illegal _ _ hdecode] at hn
    subst hn
    refine ⟨_, _, run_succ_of_next (step_of_illegal hacc hdecode),
      run_succ_of_next (step_of_illegal hacc' (hcmd ▸ hdecode)), ?_⟩
    rw [hcmd]
    exact (sameMachine_settle hsame s.ports.cmd (x := .error .illegalCommand) rfl).of_inputs _ _
  | ok i =>
    obtain ⟨u, u', hu, hu', huu'⟩ := execCommand_sameMachine hsame i
    have hn' : n = latency s'.ports.cmd s'.ports.dlen s'.klen := by rw [hn, hcmd, hdlen, hklen]
    have hrun := stepsReachTheCommandLevel s u i hacc hdecode hu (hn ▸ hrst)
    have hrun' := stepsReachTheCommandLevel s' u' i hacc' (hcmd ▸ hdecode) hu' (hn' ▸ hrst')
    rw [← hn] at hrun
    rw [← hn'] at hrun'
    exact ⟨_, _, hrun, hrun', huu'.of_inputs _ _⟩

end Sys2Proof.Machine

/-! O3, O5, O38: the idle step, the illegal word, and what a command leaves that completed with a fault
(60_exceptions.md R213, R214, R227). -/

namespace Sys2Proof.Machine

/-- The step of an idle engine to which no command is presented (10_state.md R30 case b). -/
theorem step_of_idle {s : State} (hrst : s.ports.rst = false) (hidle : s.ph = .idle) (hvalid : s.ports.cmdValid = false) :
    step s = .next (advance s) := by
  simp [step, engineStep, hrst, hidle, hvalid, advanceOutcome]

/-- Settles O3: the idle step only puts the next port sample in force. -/
theorem idleStepKeepsEverything : Obligations.IdleStepKeepsEverything :=
  fun _ hrst hidle hvalid => step_of_idle hrst hidle hvalid

/-- Settles O5: the decoder refuses the word, and the accept step of a refused word is a fault entry. -/
theorem illegalWordRaisesIllegalCommand : Obligations.IllegalWordRaisesIllegalCommand := by
  intro s hacc hillegal
  obtain ⟨e, herr⟩ := (decodingRefusesExactlyTheIllegalWords s.ports.cmd).mpr hillegal
  exact ⟨_, step_of_illegal hacc herr, faulted_raise { s with inputs := s.inputs.tail } .illegalCommand s.ports.cmd⟩

/-- A success records no fault (10_state.md R25). -/
theorem complete_errk (s : State) (res : Result) : (complete s res).errk = 0#2 := errk_of_st (complete_st ..)

/-- A started run is busy (43_feistel.md R190). -/
theorem startRun_busy (d : Direction) (s : State) : (startRun d s).busy = true := busy_of_st (startRun_st ..)

/-- A command that leaves an idle engine with a fault code has entered a fault with its own word: a success records no
fault, and a started run, which keeps the code of an older fault (log 2), is busy. -/
theorem exec_eq_raise_of_fault {i : Instr} {s t : State} (ht : exec i s = .next t) (hbusy : t.busy = false)
    (herrk : t.errk ≠ 0#2) : ∃ k, t = raise s k (encode i) := by
  rcases exec_cases i s with ⟨_, hexec⟩ | ⟨d, hcrypt, hexec⟩ | ⟨_, _, _, x, hexec⟩ <;>
    obtain rfl := Host.Outcome.next.inj (ht.symm.trans hexec)
  · exact absurd (complete_errk ..) herrk
  · have hword : cryptWord d = encode i := by rcases hcrypt with ⟨rfl, rfl⟩ | ⟨rfl, rfl⟩ <;> rfl
    rcases acceptCrypt_cases d s with ⟨_, hraise⟩ | ⟨_, hstart⟩
    · exact ⟨_, hword ▸ hraise⟩
    · rw [hstart, startRun_busy] at hbusy
      cases hbusy
  · cases x with
    | ok res => exact absurd (complete_errk s res) herrk
    | error k => exact ⟨k, settle_error s (encode i) k⟩

/-- Settles O38: the fault entry of R214, field by field. -/
theorem faultKeepsTheKeyAndDeliversNothing : Obligations.FaultKeepsTheKeyAndDeliversNothing := by
  intro i s t ht hbusy herrk
  obtain ⟨k, rfl⟩ := exec_eq_raise_of_fault ht hbusy herrk
  have hdone : (raise s k (encode i)).done = true := done_of_st (raise_st ..)
  exact ⟨rfl, rfl, rfl, rfl, hdone, rfl, rfl, rfl, rfl, rfl, rfl⟩

end Sys2Proof.Machine

/-! O2, O44: the reset step, and when a command has completed (70_reset_and_hazards.md R250, R257 to R259). -/

namespace Sys2Proof.Machine

/-! ### Reset -/

/-- The reset step, whatever the phase and the other ports (10_state.md R30 case a). -/
theorem step_of_reset {s : State} (hrst : s.ports.rst = true) : step s = .next (advance (resetStep s)) := by
  simp [step, engineStep, hrst, advanceOutcome]

/-- Settles O2: the reset step answers the state after reset, and then the next port sample is in force. -/
theorem resetStepClearsEveryRegister : Obligations.ResetStepClearsEveryRegister := fun _ hrst => step_of_reset hrst

/-! ### Before the last step -/

/-- Only `ENC` and `DEC` with a 64-bit block take more than one step (70_reset_and_hazards.md R259). -/
theorem crypt_of_one_lt_latency {w : Word} {dlen klen : Len} (h : 1 < latency w dlen klen) :
    (∃ d, w = cryptWord d) ∧ dlen = 64#7 := by
  by_cases hword : ∃ d, w = cryptWord d
  · refine ⟨hword, ?_⟩
    obtain ⟨d, rfl⟩ := hword
    by_contra hlen
    rw [latency_cryptWord, if_pos hlen] at h
    omega
  · rw [latency_of_ne _ _ (not_exists.mp hword)] at h
    omega

/-- Between its accept step and its last step `ENC` or `DEC` is on the walk of its rounds: with a short key at its start,
with a usable key after at most fifteen of them. -/
theorem run_crypt_before_last {s : State} {d : Direction} {k : Nat} (hacc : Accepts s) (hcmd : s.ports.cmd = cryptWord d)
    (hlen : s.ports.dlen = 64#7) (hrst : NoReset (latency (cryptWord d) s.ports.dlen s.klen) s) (hfirst : 1 ≤ k)
    (hbefore : k < latency (cryptWord d) s.ports.dlen s.klen) :
    ∃ m h, Host.Core.run Sys2Proof.core k s = .next (afterRounds (advance (startRun d s)) m h) := by
  obtain ⟨m, rfl⟩ : ∃ m, k = m + 1 := ⟨k - 1, by omega⟩
  rw [run_succ_of_next (step_accept_crypt hacc hcmd), acceptCrypt_ok hlen]
  rw [latency_cryptWord, if_neg (not_not.mpr hlen)] at hrst hbefore
  rcases Nat.lt_or_ge s.klen.toNat 64 with hshort | hkey
  · rw [if_pos hshort] at hbefore
    obtain rfl : m = 0 := by omega
    exact ⟨0, splitBlock (perm 64 .ip s.operand), run_zero _⟩
  · rw [if_neg (Nat.not_lt.mpr hkey)] at hrst hbefore
    have hrst' : NoReset 16 (advance (startRun d s)) := hrst.advance.of_inputs rfl
    exact ⟨m, _, run_afterRounds (s := advance (startRun d s)) rfl rfl hkey hrst' (by omega)⟩

/-- A started run is busy and not done all along the walk of its rounds (43_feistel.md R190, R191). -/
theorem afterRounds_startRun_running (d : Direction) (s : State) (m : Nat) (h : Halves) :
    (afterRounds (advance (startRun d s)) m h).busy = true ∧ (afterRounds (advance (startRun d s)) m h).done = false ∧
      (afterRounds (advance (startRun d s)) m h).ph = .run := by
  have hst : (afterRounds (advance (startRun d s)) m h).st = stOf true false s.errk := rfl
  exact ⟨busy_of_st hst, done_of_st hst, rfl⟩

/-! ### After the last step -/

/-- A completion, successful or not, leaves the engine idle and done (10_state.md R30, R35). -/
theorem settle_done (s : State) (w : Word) (x : Except Raise Result) :
    (settle s w x).busy = false ∧ (settle s w x).done = true ∧ (settle s w x).ph = .idle := by
  cases x with
  | ok res => exact ⟨busy_of_st (complete_st s res), done_of_st (complete_st s res), rfl⟩
  | error k => exact ⟨busy_of_st (raise_st s k w), done_of_st (raise_st s k w), rfl⟩

/-- A whole command ends in a completion; `LDK`'s is that of the state that holds the new key. -/
theorem execCommand_ends (i : Instr) (s : State) : ∃ s' w x, execCommand i s = .next (settle s' w x) := by
  by_cases hi : i = .ldk
  · subst hi
    exact ⟨{ s with key := s.operand, klen := s.operandLen }, encode .ldk, .ok Result.none, exec_ldk s⟩
  · obtain ⟨w, v, _, hsettle⟩ := execCommand_settles hi
    exact ⟨s, w, v s, hsettle s⟩

/-- Every accepted word, legal or not, has ended in a completion after its number of steps. -/
theorem run_latency_ends {s : State} (hacc : Accepts s) (hrst : NoReset (latency s.ports.cmd s.ports.dlen s.klen) s) :
    ∃ s' w x q, Host.Core.run Sys2Proof.core (latency s.ports.cmd s.ports.dlen s.klen) s =
      .next { settle s' w x with inputs := q } := by
  cases hdecode : decode s.ports.cmd with
  | error e =>
    rw [latency_of_illegal _ _ hdecode]
    exact ⟨s, s.ports.cmd, .error .illegalCommand, _, run_succ_of_next (step_of_illegal hacc hdecode)⟩
  | ok i =>
    obtain ⟨s', w, x, hu⟩ := execCommand_ends i s
    exact ⟨s', w, x, _, stepsReachTheCommandLevel s _ i hacc hdecode hu hrst⟩

/-- Settles O44: before the last step only a run that walks its rounds is possible, after it a completion. -/
theorem everyCommandCompletesInItsSteps : Obligations.EveryCommandCompletesInItsSteps := by
  intro s n hacc hn hrst
  obtain rfl : n = latency s.ports.cmd s.ports.dlen s.klen := hn
  constructor
  · intro k hfirst hbefore
    obtain ⟨⟨d, hcmd⟩, hlen⟩ := crypt_of_one_lt_latency (Nat.lt_of_le_of_lt hfirst hbefore)
    rw [hcmd] at hrst hbefore
    obtain ⟨m, h, hrun⟩ := run_crypt_before_last hacc hcmd hlen hrst hfirst hbefore
    exact ⟨_, hrun, afterRounds_startRun_running d s m h⟩
  · obtain ⟨s', w, x, q, hrun⟩ := run_latency_ends hacc hrst
    exact ⟨_, hrun, settle_done s' w x⟩

end Sys2Proof.Machine

/-! O28: with 64 bits or more declared, `RK` reads the key alone (92_eei_decisions.md D31). -/

namespace Sys2Proof.Machine

/-- Two declared lengths of 64 or more give the same answers of `RK`, a bad round's fault among them. -/
theorem rk_congr_klen (key : Bus) {klen klen' : Len} (hkey : 64 ≤ klen.toNat) (hkey' : 64 ≤ klen'.toNat) (r : Nat)
    (d : Direction) : rk key klen' r d = rk key klen r d := by
  by_cases hround : r < 1 ∨ 16 < r
  · rw [rk_badRound d hkey hround, rk_badRound d hkey' hround]
  · rw [rk_ok d hkey (by omega) (by omega), rk_ok d hkey' (by omega) (by omega)]

theorem execCommand_key {s t : State} {i : Instr} (hi : i ≠ .ldk) (ht : execCommand i s = .next t) : t.key = s.key := by
  obtain ⟨w, v, _, hsettle⟩ := execCommand_settles hi
  rw [hsettle] at ht
  cases ht
  exact settle_key s w (v s)

/-- Settles O28: the two lengths give the key held the same round keys. -/
theorem declaredKeyLengthBeyond64InfluencesNothing : Obligations.DeclaredKeyLengthBeyond64InfluencesNothing := by
  intro s t i n hi hkey hkey' ht
  have hkeys : SameRoundKeys s s.key n := rk_congr_klen s.key hkey hkey'
  rw [execCommand_with_key hi hkeys ht, ← execCommand_key hi ht]

end Sys2Proof.Machine

/-! O43: complementing the key complements every round key, and the two complements cancel before the S-boxes, so every
round keeps the halves complemented (95_test_vectors.md Q12). -/

namespace Sys2Proof.Machine

/-! ### The key and the round function -/

/-- A permutation of a sequence that holds all its positions commutes with the complement. -/
theorem perm_not {m n : Nat} {t : PosTable} (hn : n ≤ nOut t) (hm : nReq t ≤ m) (s : BitVec m) :
    perm n t (~~~s) = ~~~perm n t s :=
  eq_of_bits fun i hi => by
    have hpos : (prom t).getD i 0 - 1 < m := (prom_position_lt (hi.trans_le hn)).trans_le hm
    simp only [BitVec.getMsbD_not, getMsbD_perm, decide_eq_true hi, decide_eq_true hpos, Bool.true_and]

/-- A bit of a round key is a bit of the key, so the complemented key has the complemented round keys. -/
theorem keyOf_not (key : Bus) (r : Nat) (d : Direction) : keyOf (~~~key) r d = ~~~keyOf key r d :=
  eq_of_bits fun j hj => by
    have hpos : (prom .pc1).getD (rotatedIndex (rot r d) ((prom .pc2).getD j 0 - 1)) 0 - 1 < 64 :=
      prom_position_lt (t := .pc1) rotatedIndex_lt
    rw [BitVec.getMsbD_not, keyOf, keyOf, getMsbD_roundKey _ _ j hj, getMsbD_roundKey _ _ j hj, roundKeyBit, roundKeyBit,
      BitVec.getMsbD_not, decide_eq_true hj, decide_eq_true hpos]

/-- `E(~right) ^ ~k = E(right) ^ k`: the S-boxes meet the same input. -/
theorem feistel_not (right : BitVec 32) (k : BitVec 48) : feistel (~~~right) (~~~k) = feistel right k := by
  rw [feistel, perm_not (m := 32) (n := 48) (t := .e) le_rfl le_rfl, ← BitVec.not_xor_left, ← BitVec.not_xor_right,
    BitVec.not_not, feistel]

/-! ### The halves -/

/-- Both halves complemented. -/
def Halves.compl (h : Halves) : Halves := ⟨~~~h.left, ~~~h.right⟩

theorem block_compl (h : Halves) : h.compl.block = ~~~h.block := BitVec.not_append.symm

theorem splitBlock_not (b : BitVec 64) : splitBlock (~~~b) = (splitBlock b).compl := by
  rw [← splitBlock_block (splitBlock b).compl, block_compl, block_splitBlock]

theorem joinBlock_compl (h : Halves) : joinBlock h.compl = ~~~joinBlock h := by
  rw [joinBlock_eq, joinBlock_eq, ← perm_not (m := 64) (n := 64) (t := .ipInverse) le_rfl le_rfl, ← block_compl]
  rfl

theorem round_compl (h : Halves) (k : BitVec 48) : round h.compl (~~~k) = (round h k).compl := by
  simp only [round, Halves.compl, feistel_not, BitVec.not_xor_left]

theorem halvesAfter_compl (key : Bus) (d : Direction) (h : Halves) (n : Nat) :
    halvesAfter (~~~key) d h.compl n = (halvesAfter key d h n).compl := by
  induction n with
  | zero => rfl
  | succ n ih => rw [halvesAfter, ih, keyOf_not, round_compl, halvesAfter]

/-- Sixteen rounds under the complemented key keep the halves of the complemented block complemented. -/
theorem lastHalves_not (key : Bus) (d : Direction) (b : BitVec 64) :
    lastHalves (~~~key) d (~~~b) = (lastHalves key d b).compl := by
  rw [lastHalves, perm_not (m := 64) (n := 64) (t := .ip) le_rfl le_rfl, splitBlock_not, halvesAfter_compl, lastHalves]

/-- Settles O43, by the closed form of the seventeen steps of either direction. -/
theorem complementationProperty : Obligations.ComplementationProperty := by
  intro s s' t hacc hacc' hcmd hcmd' hlen hlen' hkey hkey' hnotKey hnotDin hrst hrst' ht
  obtain ⟨d, hword⟩ : ∃ d, s.ports.cmd = cryptWord d := hcmd.elim (⟨.forward, ·⟩) (⟨.reverse, ·⟩)
  rw [run_crypt_ok hacc hword hlen hkey hrst] at ht
  cases ht
  refine ⟨_, run_crypt_ok hacc' (hcmd'.trans hword) hlen' hkey' hrst', ?_, rfl⟩
  simp only [hnotKey, hnotDin, complete_dout, Result.of, bus_block, lastHalves_not, joinBlock_compl]

end Sys2Proof.Machine
